-- ==== Sys2Proof/Word.lean ====
section
/-! DEFINITION. The word type of the machine (00_scope R9, R10). -/

namespace Sys2Proof

/-- A Word: 16 bits, bit 15 the most significant (R9). `BitVec.toNat` is `unsigned(w)`, `BitVec.toInt` is `signed(w)`
(R10); `+` and `-` wrap modulo 65536 (R11). -/
abbrev Word := BitVec 16

/-- The six-bit function-control code `zx nx zy ny f no`, most significant first (30_encoding R64). -/
abbrev Code := BitVec 6

end Sys2Proof
end

