-- ==== Sys2Proof/Machine/State.lean ====
section
/-! DEFINITION. The architectural state (10_state R20), the faults (60_exceptions R251) and the state after construct. -/

namespace Sys2Proof.Machine

/-- One word of a memory at a word address. The machine has no bytes (20_memory R41), so a cell holds a Word (DEDUCED, safe:
log 1). -/
abbrev Cell := Nat × Word

/-- A memory: the words that are not zero, by rising address. An address that is not listed reads as 0, which both memories
hold from construction on (R31, R32; DESIGN CHOICE, safe: log 14). `Memory.wf` states the canonical form. -/
abbrev Memory := List Cell

/-- A write notification `(address, value)` to the display collaborator (20_memory R47, 45_host_interface R228). It is
the output of a tick or a host call, never state (R30; DEDUCED, safe: log 8). -/
structure Note where
  addr : Word
  value : Word
  deriving DecidableEq, Repr

/-- The two address spaces (20_memory R40). -/
inductive Space where
  | rom
  | ram
  deriving DecidableEq, Repr

/-- Why a load is rejected (45_host_interface R222). -/
inductive LoadError where
  /-- More lines than `ROM_SIZE`. -/
  | capacity
  /-- The line with this index is not 16 characters of `0` and `1`. -/
  | line (index : Nat)
  deriving DecidableEq, Repr

/-- The faults, complete (60_exceptions R251). A rejected operation changes no state and emits no notification (R252), so a
fault carries none; the next operation starts from the state the rejected one started from (`Machine.afterCall`). -/
inductive Fault where
  /-- An address outside a memory. Raised by a tick: `ram` by step 1 (R133), `rom` by the fetch (R135) and by the next-PC
  guard with the rejected next PC (R136); by `read_memory` and `write_memory` (R226, R227). Safe: the machine stops where an
  implementation that clamps or wraps would go on (D7, D8, D13). -/
  | outOfRange (space : Space) (addr : Nat)
  /-- A program store to the keyboard register (R49, R254). Raised by a tick. Safe: an implementation that stores or ignores
  the word would go on (D14). -/
  | keyboardStore (addr : Nat)
  /-- A malformed program text (R222). Raised by `load_program`, never by a tick. Safe: the load is rejected whole. -/
  | formatError (why : LoadError)
  deriving DecidableEq, Repr

/-- The refusals. No word of this machine is refused (30_encoding R68), so a step never answers with one. -/
inductive Refusal where
  /-- An instruction with no meaning yet, by the mnemonic of the opcode table. Safe. Raised by an arm of `exec` alone; no
  arm does. -/
  | notModelled (mnemonic : String)
  deriving DecidableEq, Repr

/-- The complete architectural state: six items (R20). There are no flags, modes, counters or fault registers (R25, R26). -/
structure State where
  /-- `PC`: the ROM index of the instruction the next tick executes (R23, R24). -/
  pc : Word
  /-- `A`: the address register (R21, R22). -/
  a : Word
  /-- `D`: the data register (R21). -/
  d : Word
  /-- `ML`: the memory operand latch (R27, R28). -/
  ml : Word
  /-- The data store (R29), with the screen range and the keyboard register. -/
  ram : Memory
  /-- The instruction store (R29). -/
  rom : Memory
  deriving DecidableEq, Repr

/-- The machine after `construct()` (R31, R32, 70_reset_and_hazards R280): every register and every word of both memories
is zero. The host call `reset()` gives this state with its ROM kept (`Machine.resetMachine`). -/
def State.reset : State where
  pc := 0#16
  a := 0#16
  d := 0#16
  ml := 0#16
  ram := []
  rom := []

/-- What executing an instruction answers. -/
abbrev Result := Host.Outcome State Fault Refusal

end Sys2Proof.Machine
end

