-- ==== Sys2Proof/Syntax.lean ====
section
/-! DEFINITION. The instructions: one constructor per row of spec/opcode_table.json. -/

namespace Sys2Proof

/-- The choice the a-bit makes for the ALU's second operand (30_encoding R65, 43_compute_instruction R161). -/
inductive Operand where
  /-- a = 0: the raw value of the address register. -/
  | addr
  /-- a = 1: the memory operand `RAM[A0]`. -/
  | mem
  deriving DecidableEq, Repr

/-- The destination codes by their mnemonics (30_encoding R74). -/
inductive Dest where
  /-- `000`: nothing is written (R191). -/
  | null
  /-- `001`: `RAM[A0]` (R192). -/
  | M
  /-- `010`: `D` (R193). -/
  | D
  /-- `011`: `RAM[A0]` and `D` (R194). -/
  | MD
  /-- `100`: `A` (R195). -/
  | A
  /-- `101`: `RAM[A0]` and `A` (R196). -/
  | AM
  /-- `110`: `D` and `A` (R197). -/
  | AD
  /-- `111`: `RAM[A0]`, `D` and `A` (R198). -/
  | AMD
  deriving DecidableEq, Repr

/-- The jump codes by their mnemonics (30_encoding R75, 44_jump R201 to R208). -/
inductive Jump where
  /-- `000`: never. -/
  | null
  /-- `001`: result > 0. -/
  | JGT
  /-- `010`: result = 0. -/
  | JEQ
  /-- `011`: result ≥ 0. -/
  | JGE
  /-- `100`: result < 0. -/
  | JLT
  /-- `101`: result ≠ 0. -/
  | JNE
  /-- `110`: result ≤ 0. -/
  | JLE
  /-- `111`: always. -/
  | JMP
  deriving DecidableEq, Repr

/-- The instructions, in the order of the opcode table. The machine has two kinds (30_encoding R60): `atValue` is the
address-instruction, every other constructor is a compute-instruction seen through one row of the table. A row fixes some
fields of the compute-instruction and its constructor carries the others (R79); since the rows overlap, `Instr.wf` says
which constructor a word belongs to (DESIGN CHOICE, safe: log 4). -/
inductive Instr where
  /-- `@value` (R150). -/
  | atValue (value : BitVec 15)
  /-- `dest=comp;jump`, the general compute-instruction, any control code (R160). -/
  | compute (y : Operand) (c : Code) (d : Dest) (j : Jump)
  /-- computation `0` (R162). -/
  | comp0 (d : Dest) (j : Jump)
  /-- computation `1` (R163). -/
  | comp1 (d : Dest) (j : Jump)
  /-- computation `-1` (R164). -/
  | compNeg1 (d : Dest) (j : Jump)
  /-- computation `D` (R165). -/
  | compD (d : Dest) (j : Jump)
  /-- computation `A` (R166). -/
  | compA (d : Dest) (j : Jump)
  /-- computation `!D` (R167). -/
  | compNotD (d : Dest) (j : Jump)
  /-- computation `!A` (R168). -/
  | compNotA (d : Dest) (j : Jump)
  /-- computation `-D` (R169). -/
  | compNegD (d : Dest) (j : Jump)
  /-- computation `-A` (R170). -/
  | compNegA (d : Dest) (j : Jump)
  /-- computation `D+1` (R171). -/
  | compDPlus1 (d : Dest) (j : Jump)
  /-- computation `A+1` (R172). -/
  | compAPlus1 (d : Dest) (j : Jump)
  /-- computation `D-1` (R173). -/
  | compDMinus1 (d : Dest) (j : Jump)
  /-- computation `A-1` (R174). -/
  | compAMinus1 (d : Dest) (j : Jump)
  /-- computation `D+A` (R175). -/
  | compDPlusA (d : Dest) (j : Jump)
  /-- computation `D-A` (R176). -/
  | compDMinusA (d : Dest) (j : Jump)
  /-- computation `A-D` (R177). -/
  | compAMinusD (d : Dest) (j : Jump)
  /-- computation `D&A` (R178). -/
  | compDAndA (d : Dest) (j : Jump)
  /-- computation `D|A` (R179). -/
  | compDOrA (d : Dest) (j : Jump)
  /-- computation `M` (R180). -/
  | compM (d : Dest) (j : Jump)
  /-- computation `!M` (R181). -/
  | compNotM (d : Dest) (j : Jump)
  /-- computation `-M` (R182). -/
  | compNegM (d : Dest) (j : Jump)
  /-- computation `M+1` (R183). -/
  | compMPlus1 (d : Dest) (j : Jump)
  /-- computation `M-1` (R184). -/
  | compMMinus1 (d : Dest) (j : Jump)
  /-- computation `D+M` (R185). -/
  | compDPlusM (d : Dest) (j : Jump)
  /-- computation `D-M` (R186). -/
  | compDMinusM (d : Dest) (j : Jump)
  /-- computation `M-D` (R187). -/
  | compMMinusD (d : Dest) (j : Jump)
  /-- computation `D&M` (R188). -/
  | compDAndM (d : Dest) (j : Jump)
  /-- computation `D|M` (R189). -/
  | compDOrM (d : Dest) (j : Jump)
  /-- destination `000`, nothing (R191). -/
  | destNull (y : Operand) (c : Code) (j : Jump)
  /-- destination `001`, `M` (R192). -/
  | destM (y : Operand) (c : Code) (j : Jump)
  /-- destination `010`, `D` (R193). -/
  | destD (y : Operand) (c : Code) (j : Jump)
  /-- destination `011`, `MD` (R194). -/
  | destMD (y : Operand) (c : Code) (j : Jump)
  /-- destination `100`, `A` (R195). -/
  | destA (y : Operand) (c : Code) (j : Jump)
  /-- destination `101`, `AM` (R196). -/
  | destAM (y : Operand) (c : Code) (j : Jump)
  /-- destination `110`, `AD` (R197). -/
  | destAD (y : Operand) (c : Code) (j : Jump)
  /-- destination `111`, `AMD` (R198). -/
  | destAMD (y : Operand) (c : Code) (j : Jump)
  /-- jump `000`, none (R201). -/
  | jumpNull (y : Operand) (c : Code) (d : Dest)
  /-- jump `001`, `JGT` (R202). -/
  | jumpJGT (y : Operand) (c : Code) (d : Dest)
  /-- jump `010`, `JEQ` (R203). -/
  | jumpJEQ (y : Operand) (c : Code) (d : Dest)
  /-- jump `011`, `JGE` (R204). -/
  | jumpJGE (y : Operand) (c : Code) (d : Dest)
  /-- jump `100`, `JLT` (R205). -/
  | jumpJLT (y : Operand) (c : Code) (d : Dest)
  /-- jump `101`, `JNE` (R206). -/
  | jumpJNE (y : Operand) (c : Code) (d : Dest)
  /-- jump `110`, `JLE` (R207). -/
  | jumpJLE (y : Operand) (c : Code) (d : Dest)
  /-- jump `111`, `JMP` (R208). -/
  | jumpJMP (y : Operand) (c : Code) (d : Dest)
  deriving DecidableEq, Repr

end Sys2Proof
end

