-- ==== Sys2Proof/Machine/Flags.lean ====
section
/-! DEFINITION. The arithmetic/logic unit with its two flags (40_alu R80, R81) and the jump condition (44_jump R200). -/

namespace Sys2Proof.Machine

/-- What the ALU returns: `(out, zr, ng)` (R80). The flags are never stored (10_state R25). -/
structure AluOut where
  out : Word
  zr : Bool
  ng : Bool
  deriving DecidableEq, Repr

/-- Stages 1 and 2 on one operand: zero it, then complement it (R80). -/
def preset (zero neg : Bool) (v : Word) : Word :=
  let v1 := if zero then 0#16 else v
  if neg then ~~~v1 else v1

/-- Stages 3 and 4: wrapping add or bitwise and, then complement (R80). -/
def combine (add neg : Bool) (x y : Word) : Word :=
  let r := if add then x + y else x &&& y
  if neg then ~~~r else r

/-- The result word of the ALU for a control code `zx nx zy ny f no`, most significant first (R80). -/
def aluOut (x y : Word) (c : Code) : Word :=
  combine (c.getLsbD 1) (c.getLsbD 0) (preset (c.getLsbD 5) (c.getLsbD 4) x) (preset (c.getLsbD 3) (c.getLsbD 2) y)

/-- `zr`: the result is zero (R81). -/
def zrFlag (out : Word) : Bool := decide (out = 0#16)

/-- `ng`: bit 15 of the result is set (R81). -/
def ngFlag (out : Word) : Bool := out.getLsbD 15

/-- `ALU(x, y, c)`: total and pure (R80, R82). -/
def alu (x y : Word) (c : Code) : AluOut where
  out := aluOut x y c
  zr := zrFlag (aluOut x y c)
  ng := ngFlag (aluOut x y c)

/-- `Cond(j, zr, ng)` (44_jump R200, the source's table). -/
def jumpCond (j : Jump) (zr ng : Bool) : Bool :=
  match j with
  | .null => false
  | .JGT => !(zr || ng)
  | .JEQ => zr
  | .JGE => !ng
  | .JLT => ng
  | .JNE => !zr
  | .JLE => ng || zr
  | .JMP => true

end Sys2Proof.Machine
end

