-- ==== Sys2Proof/Config.lean ====
section
/-! DEFINITION. The implementation parameters of 00_scope R7, and the values the spec leaves open. -/

namespace Sys2Proof

/-- The parameters of R7, one field for each row of its table. -/
structure Config where
  /-- `XLEN`: width of a Word and of the registers A, D, ML; `Word` has it (`Laws` `word_width`). -/
  xlen : Nat
  /-- `ROM_SIZE`: valid ROM addresses are 0 to `romSize - 1`. -/
  romSize : Nat
  /-- `RAM_SIZE`: valid RAM addresses are 0 to `ramSize - 1`. -/
  ramSize : Nat
  /-- `SCREEN_BASE`: first RAM address of the screen range. -/
  screenBase : Nat
  /-- `SCREEN_LEN`: number of words in the screen range. -/
  screenLen : Nat
  /-- `KBD_ADDR`: RAM address of the keyboard register. -/
  kbdAddr : Nat
  /-- `PC_WIDTH`: width of the program counter; `State.pc` has it (`Laws` `pc_width`). -/
  pcWidth : Nat
  deriving DecidableEq, Repr

/-- The constraints a model must keep (R7, last column but one of its table). -/
def Config.valid (c : Config) : Bool :=
  decide (c.xlen = 16) && decide (1 ≤ c.romSize) && decide (c.romSize ≤ 65536) && decide (c.ramSize = c.romSize)
    && decide (c.romSize ≤ 2 ^ c.pcWidth) && decide (1 ≤ c.screenLen) && decide (c.screenBase + c.screenLen ≤ c.ramSize)
    && decide (c.kbdAddr < c.ramSize)
    && (decide (c.kbdAddr < c.screenBase) || decide (c.screenBase + c.screenLen ≤ c.kbdAddr))

/-- The values the spec decides for this hardware (R7, R8; D1 to D4, D6). Log 2: PRESUMED by the spec itself from the Hack
platform, unsafe if the repository differs. -/
def config : Config where
  xlen := 16
  romSize := 32768
  ramSize := 32768
  screenBase := 16384
  screenLen := 8192
  kbdAddr := 24576
  pcWidth := 16

/-- Free value (DESIGN CHOICE, safe: log 12): which of several load errors that hold together `load_program` reports; the spec leaves it
unspecified (45_host_interface R222, 93 U14). -/
opaque Config.reportedCause : List (List Char) → Nat

/-- Free value (DESIGN CHOICE: log 13): whether the `pc` of an `on_step` observation is the one after the step (R232: not said). -/
opaque Config.stepPcAfter : Bool

/-- Free value (DESIGN CHOICE: log 13): whether the register snapshot of an `on_step` observation is the one after the step (R232). -/
opaque Config.stepRegsAfter : Bool

end Sys2Proof
end

