-- ==== Sys2Proof/Decode.lean ====
section
/-! DEFINITION. The decoder and the encoder (30_encoding R60 to R79), from the same tables. -/

namespace Sys2Proof

/-- The two instruction kinds with their fields: what the bits of a word say before a row of the opcode table is named
(30_encoding R61, R62). -/
inductive Fields where
  /-- An address-instruction with its 15-bit immediate. -/
  | address (value : BitVec 15)
  /-- A compute-instruction with its four fields; the two unused bits are dropped (R69). -/
  | compute (y : Operand) (c : Code) (d : Dest) (j : Jump)
  deriving DecidableEq, Repr

/-- One row of the computation table of 30_encoding R73. -/
structure CompRow where
  y : Operand
  c : Code
  /-- The mnemonic, for the disassembler alone. -/
  text : String
  /-- The instruction of that row. -/
  instr : Dest → Jump → Instr

/-- The computations that read no memory operand: the column "mnemonic when a = 0" of R73. -/
def compRowsA : List CompRow :=
  [⟨.addr, 0b101010#6, "0", .comp0⟩, ⟨.addr, 0b111111#6, "1", .comp1⟩,
   ⟨.addr, 0b111010#6, "-1", .compNeg1⟩, ⟨.addr, 0b001100#6, "D", .compD⟩,
   ⟨.addr, 0b110000#6, "A", .compA⟩, ⟨.addr, 0b001101#6, "!D", .compNotD⟩,
   ⟨.addr, 0b110001#6, "!A", .compNotA⟩, ⟨.addr, 0b001111#6, "-D", .compNegD⟩,
   ⟨.addr, 0b110011#6, "-A", .compNegA⟩, ⟨.addr, 0b011111#6, "D+1", .compDPlus1⟩,
   ⟨.addr, 0b110111#6, "A+1", .compAPlus1⟩, ⟨.addr, 0b001110#6, "D-1", .compDMinus1⟩,
   ⟨.addr, 0b110010#6, "A-1", .compAMinus1⟩, ⟨.addr, 0b000010#6, "D+A", .compDPlusA⟩,
   ⟨.addr, 0b010011#6, "D-A", .compDMinusA⟩, ⟨.addr, 0b000111#6, "A-D", .compAMinusD⟩,
   ⟨.addr, 0b000000#6, "D&A", .compDAndA⟩, ⟨.addr, 0b010101#6, "D|A", .compDOrA⟩]

/-- The computations that read the memory operand: the column "mnemonic when a = 1" of R73. -/
def compRowsM : List CompRow :=
  [⟨.mem, 0b110000#6, "M", .compM⟩, ⟨.mem, 0b110001#6, "!M", .compNotM⟩,
   ⟨.mem, 0b110011#6, "-M", .compNegM⟩, ⟨.mem, 0b110111#6, "M+1", .compMPlus1⟩,
   ⟨.mem, 0b110010#6, "M-1", .compMMinus1⟩, ⟨.mem, 0b000010#6, "D+M", .compDPlusM⟩,
   ⟨.mem, 0b010011#6, "D-M", .compDMinusM⟩, ⟨.mem, 0b000111#6, "M-D", .compMMinusD⟩,
   ⟨.mem, 0b000000#6, "D&M", .compDAndM⟩, ⟨.mem, 0b010101#6, "D|M", .compDOrM⟩]

/-- The 28 rows of R73. -/
def compRows : List CompRow := compRowsA ++ compRowsM

/-- The row of R73 for an a-bit and a control code; `none` for a pair that has no mnemonic (R70). -/
def compRow (y : Operand) (c : Code) : Option CompRow :=
  compRows.find? fun r => decide (r.y = y) && decide (r.c = c)

/-! ### Field codes -/

/-- The a-bit (R65). -/
def Operand.aBit : Operand → Bool
  | .addr => false
  | .mem => true

/-- The operand an a-bit selects (R65). -/
def Operand.ofBit : Bool → Operand
  | false => .addr
  | true => .mem

/-- The destination code of a mnemonic (R74). -/
def Dest.bits : Dest → BitVec 3
  | .null => 0b000#3
  | .M => 0b001#3
  | .D => 0b010#3
  | .MD => 0b011#3
  | .A => 0b100#3
  | .AM => 0b101#3
  | .AD => 0b110#3
  | .AMD => 0b111#3

/-- The destination selected by the three independent bits `dA`, `dD`, `dM` (R66). -/
def Dest.ofBits : Bool → Bool → Bool → Dest
  | false, false, false => .null
  | false, false, true => .M
  | false, true, false => .D
  | false, true, true => .MD
  | true, false, false => .A
  | true, false, true => .AM
  | true, true, false => .AD
  | true, true, true => .AMD

/-- The jump code of a mnemonic (R75). -/
def Jump.bits : Jump → BitVec 3
  | .null => 0b000#3
  | .JGT => 0b001#3
  | .JEQ => 0b010#3
  | .JGE => 0b011#3
  | .JLT => 0b100#3
  | .JNE => 0b101#3
  | .JLE => 0b110#3
  | .JMP => 0b111#3

/-- The jump of the code `ins[2] ins[1] ins[0]` (R67, R75). -/
def Jump.ofBits : Bool → Bool → Bool → Jump
  | false, false, false => .null
  | false, false, true => .JGT
  | false, true, false => .JEQ
  | false, true, true => .JGE
  | true, false, false => .JLT
  | true, false, true => .JNE
  | true, true, false => .JLE
  | true, true, true => .JMP

/-! ### Decoding -/

/-- The fields of a word (R60 to R67). Total: every word is an instruction (R68). Bits 14 and 13 of a
compute-instruction are not read (R69; PRESUMED by the spec, unsafe for words whose bits are not 11: log 5). The positions
are the spec's D9 and D10 (PRESUMED by the spec, unsafe: log 3). -/
def decodeFields (w : Word) : Fields :=
  if w.getLsbD 15 then
    .compute (Operand.ofBit (w.getLsbD 12)) (w.extractLsb' 6 6)
      (Dest.ofBits (w.getLsbD 5) (w.getLsbD 4) (w.getLsbD 3))
      (Jump.ofBits (w.getLsbD 2) (w.getLsbD 1) (w.getLsbD 0))
  else .address (w.extractLsb' 0 15)

/-- The row of a compute-instruction whose (a, c) pair has no mnemonic, by its shape (R72): a destination and a jump, a
destination alone, a jump alone, or the computation alone (DESIGN CHOICE, safe: log 4). -/
def shapeInstr (y : Operand) (c : Code) (d : Dest) (j : Jump) : Instr :=
  match d, j with
  | .null, .null =>
    match y with
    | .addr => .destNull .addr c .null
    | .mem => .jumpNull .mem c .null
  | .M, .null => .destM y c .null
  | .D, .null => .destD y c .null
  | .MD, .null => .destMD y c .null
  | .A, .null => .destA y c .null
  | .AM, .null => .destAM y c .null
  | .AD, .null => .destAD y c .null
  | .AMD, .null => .destAMD y c .null
  | .null, .JGT => .jumpJGT y c .null
  | .null, .JEQ => .jumpJEQ y c .null
  | .null, .JGE => .jumpJGE y c .null
  | .null, .JLT => .jumpJLT y c .null
  | .null, .JNE => .jumpJNE y c .null
  | .null, .JLE => .jumpJLE y c .null
  | .null, .JMP => .jumpJMP y c .null
  | d, j => .compute y c d j

/-- The row of the opcode table that names a word with these fields: the most specific one (DESIGN CHOICE,
safe: log 4). -/
def Fields.instr : Fields → Instr
  | .address v => .atValue v
  | .compute y c d j =>
    match compRow y c with
    | some r => r.instr d j
    | none => shapeInstr y c d j

/-- The instruction of a word. Total, never a refusal (R68). -/
def decode (w : Word) : Instr := (decodeFields w).instr

/-! ### Encoding -/

/-- The fields an instruction stands for: what its row fixes and what its constructor carries (R73, R74, R75, R79). -/
def Instr.fields : Instr → Fields
  | .atValue v => .address v
  | .compute y c d j => .compute y c d j
  | .comp0 d j => .compute .addr 0b101010#6 d j
  | .comp1 d j => .compute .addr 0b111111#6 d j
  | .compNeg1 d j => .compute .addr 0b111010#6 d j
  | .compD d j => .compute .addr 0b001100#6 d j
  | .compA d j => .compute .addr 0b110000#6 d j
  | .compNotD d j => .compute .addr 0b001101#6 d j
  | .compNotA d j => .compute .addr 0b110001#6 d j
  | .compNegD d j => .compute .addr 0b001111#6 d j
  | .compNegA d j => .compute .addr 0b110011#6 d j
  | .compDPlus1 d j => .compute .addr 0b011111#6 d j
  | .compAPlus1 d j => .compute .addr 0b110111#6 d j
  | .compDMinus1 d j => .compute .addr 0b001110#6 d j
  | .compAMinus1 d j => .compute .addr 0b110010#6 d j
  | .compDPlusA d j => .compute .addr 0b000010#6 d j
  | .compDMinusA d j => .compute .addr 0b010011#6 d j
  | .compAMinusD d j => .compute .addr 0b000111#6 d j
  | .compDAndA d j => .compute .addr 0b000000#6 d j
  | .compDOrA d j => .compute .addr 0b010101#6 d j
  | .compM d j => .compute .mem 0b110000#6 d j
  | .compNotM d j => .compute .mem 0b110001#6 d j
  | .compNegM d j => .compute .mem 0b110011#6 d j
  | .compMPlus1 d j => .compute .mem 0b110111#6 d j
  | .compMMinus1 d j => .compute .mem 0b110010#6 d j
  | .compDPlusM d j => .compute .mem 0b000010#6 d j
  | .compDMinusM d j => .compute .mem 0b010011#6 d j
  | .compMMinusD d j => .compute .mem 0b000111#6 d j
  | .compDAndM d j => .compute .mem 0b000000#6 d j
  | .compDOrM d j => .compute .mem 0b010101#6 d j
  | .destNull y c j => .compute y c .null j
  | .destM y c j => .compute y c .M j
  | .destD y c j => .compute y c .D j
  | .destMD y c j => .compute y c .MD j
  | .destA y c j => .compute y c .A j
  | .destAM y c j => .compute y c .AM j
  | .destAD y c j => .compute y c .AD j
  | .destAMD y c j => .compute y c .AMD j
  | .jumpNull y c d => .compute y c d .null
  | .jumpJGT y c d => .compute y c d .JGT
  | .jumpJEQ y c d => .compute y c d .JEQ
  | .jumpJGE y c d => .compute y c d .JGE
  | .jumpJLT y c d => .compute y c d .JLT
  | .jumpJNE y c d => .compute y c d .JNE
  | .jumpJLE y c d => .compute y c d .JLE
  | .jumpJMP y c d => .compute y c d .JMP

/-- The canonical word of some fields; a compute-instruction has its unused bits 11 (R61, R62, R69). -/
def encodeFields : Fields → Word
  | .address v => v.setWidth 16
  | .compute y c d j =>
    0xE000#16 ||| (BitVec.ofBool y.aBit).setWidth 16 <<< 12 ||| c.setWidth 16 <<< 6 ||| d.bits.setWidth 16 <<< 3
      ||| j.bits.setWidth 16

/-- The canonical word of an instruction. -/
def encode (i : Instr) : Word := encodeFields i.fields

/-- The instruction the decoder reads from a table word: `nbits` bits of `w`, every higher bit 0. An instruction is one
word of 16 bits (R60), so nothing longer is one. -/
def decodeTableWord (nbits w : Nat) : Option Instr :=
  if nbits ≤ 16 then some (decode (BitVec.ofNat 16 (w % 2 ^ nbits))) else none

end Sys2Proof
end

