-- ==== Sys2Proof/Machine/Ops.lean ====
section
/-! DEFINITION. The named operations over the memories and the registers, the tick every instruction shares, and the fetch. -/

namespace Sys2Proof.Machine

/-! ### The memory representation -/

/-- The word at an address; an address not listed reads as 0 (10_state R31, R32). -/
def Memory.get : Memory → Nat → Word
  | [], _ => 0#16
  | c :: rest, k => if c.1 = k then c.2 else Memory.get rest k

/-- The memory with an address not listed. -/
def Memory.erase (m : Memory) (k : Nat) : Memory := m.filter fun c => decide (c.1 ≠ k)

/-- A cell put before the first one with a higher address. -/
def Memory.insert : Memory → Nat → Word → Memory
  | [], k, v => [(k, v)]
  | c :: rest, k, v => if k < c.1 then (k, v) :: c :: rest else c :: Memory.insert rest k v

/-- The memory with the word at one address replaced: `RAM[k] <- v`. A zero word is not listed. -/
def Memory.set (m : Memory) (k : Nat) (v : Word) : Memory :=
  if v = 0#16 then Memory.erase m k else Memory.insert (Memory.erase m k) k v

/-- The canonical form: addresses strictly rising, no listed word zero. -/
def Memory.wf (m : Memory) : Bool :=
  decide (m.Pairwise fun x y => x.1 < y.1) && m.all fun c => decide (c.2 ≠ 0#16)

/-- Every listed address is below `n`. -/
def Memory.within (m : Memory) (n : Nat) : Bool := m.all fun c => decide (c.1 < n)

/-! ### The access primitives (20_memory R43 to R47) -/

/-- `RomRead(addr)` (R43). -/
def romRead (s : State) (addr : Word) : Except Fault Word :=
  if addr.toNat < config.romSize then .ok (Memory.get s.rom addr.toNat)
  else .error (.outOfRange .rom addr.toNat)

/-- `MemRead(addr, 1)` (R44). -/
def memRead (s : State) (addr : Word) : Except Fault Word :=
  if addr.toNat < config.ramSize then .ok (Memory.get s.ram addr.toNat)
  else .error (.outOfRange .ram addr.toNat)

/-- The address lies in the screen range (R46). -/
def inScreen (addr : Word) : Bool :=
  decide (config.screenBase ≤ addr.toNat) && decide (addr.toNat < config.screenBase + config.screenLen)

/-- The address is the keyboard register (R48). A program store there is rejected (DEDUCED, safe: log 6). -/
def isKeyboard (addr : Word) : Bool := decide (addr.toNat = config.kbdAddr)

/-- What a write of `v` to `RAM[addr]` notifies: one pair in the screen range, changed word or not, else nothing (R47). -/
def notify (addr v : Word) : List Note := if inScreen addr then [⟨addr, v⟩] else []

/-- `MemWrite(addr, 1, v)` with its notifications (R45). -/
def memWrite (s : State) (addr v : Word) : Except Fault (State × List Note) :=
  if addr.toNat < config.ramSize then
    .ok ({ s with ram := Memory.set s.ram addr.toNat v }, notify addr v)
  else .error (.outOfRange .ram addr.toNat)

/-! ### Rejection: the only form an exception has here (60_exceptions R250, R252, R259) -/

/-- `raise F(info)`: the tick is rejected. Nothing is saved, no mode changes, control goes nowhere and no state changes;
there is no trap entry and no return (R259). -/
def reject (f : Fault) : Result := .fault f

/-! ### The tick (41_cycle_step R130) -/

/-- What an instruction writes at the commit point, computed from pre-cycle values alone (R131). -/
structure Writes where
  /-- The word for `RAM[A0]`, if the instruction stores. -/
  mem : Option Word
  /-- The new `D`, if it is written. -/
  d : Option Word
  /-- The new `A`, if it is written. -/
  a : Option Word
  /-- The next program counter as an integer (R136). -/
  next : Nat
  deriving DecidableEq, Repr

/-- The commit of R130: every write at once, the latch with the word read in step 1 and `RAM[A0]` at the old `A`. -/
def commit (s : State) (m : Word) (w : Writes) : State where
  pc := BitVec.ofNat 16 w.next
  a := w.a.getD s.a
  d := w.d.getD s.d
  ml := m
  ram := match w.mem with
    | some v => Memory.set s.ram s.a.toNat v
    | none => s.ram
  rom := s.rom

/-- A tick around one instruction: step 1 reads `RAM[A0]` under its guard (R132, R133), the instruction's writes are
computed, the keyboard guard (20_memory R49) and then the next-PC guard (R136) are tested in the order of R137, and all
writes commit or none does (R138). -/
def tickWith (s : State) (writes : Word → Writes) : Result :=
  match memRead s s.a with
  | .error f => reject f
  | .ok m =>
    if (writes m).mem.isSome && isKeyboard s.a then reject (.keyboardStore s.a.toNat)
    else if (writes m).next < config.romSize then .next (commit s m (writes m))
    else reject (.outOfRange .rom (writes m).next)

/-! ### The fetch -/

/-- Steps 1 and 2 of R130 as far as they choose the instruction: the RAM guard comes before the ROM guard (R135, R137;
DEDUCED, safe: log 10), then the word at `ROM[PC0]` is decoded. -/
def fetch (s : State) : Except Fault Instr :=
  match memRead s s.a with
  | .error f => .error f
  | .ok _ =>
    match romRead s s.pc with
    | .error f => .error f
    | .ok w => .ok (decode w)

/-- The state with a word put into ROM at the program counter, where the next tick fetches (DEDUCED, safe: log 11). -/
def placeAtPc (s : State) (w : Word) : State := { s with rom := Memory.set s.rom s.pc.toNat w }

end Sys2Proof.Machine
end

