-- ==== Sys2Proof/Machine/Operands.lean ====
section
/-! DEFINITION. Operand selection, destinations, the next program counter, and the compute-instruction as one operation. -/

namespace Sys2Proof.Machine

/-- The ALU's second operand (43_compute_instruction R161): the raw `A0`, or `m`, the word step 1 of this tick latched. -/
def yOperand (s : State) (m : Word) : Operand → Word
  | .addr => s.a
  | .mem => m

/-- The destination includes `RAM[A0]`: bit `ins[3]` (30_encoding R66, R74). -/
def writesM : Dest → Bool
  | .M | .MD | .AM | .AMD => true
  | .null | .D | .A | .AD => false

/-- The destination includes `D`: bit `ins[4]` (R66, R74). -/
def writesD : Dest → Bool
  | .D | .MD | .AD | .AMD => true
  | .null | .M | .A | .AM => false

/-- The destination includes `A`: bit `ins[5]` (R66, R74). -/
def writesA : Dest → Bool
  | .A | .AM | .AD | .AMD => true
  | .null | .M | .D | .MD => false

/-- `some v` when the destination is selected. -/
def selected (sel : Bool) (v : Word) : Option Word := if sel then some v else none

/-- The next program counter as an integer (44_jump R209, R210; no wrap, DEDUCED, safe: log 7): the old `A` if the jump is taken, else `PC0 + 1`. -/
def nextPc (s : State) (taken : Bool) : Nat := if taken then s.a.toNat else s.pc.toNat + 1

/-- Steps 4a to 4f of R130: what a compute-instruction writes, from pre-cycle values and the latched word (R160, R190). -/
def computeWrites (s : State) (y : Operand) (c : Code) (d : Dest) (j : Jump) (m : Word) : Writes :=
  let r := alu s.d (yOperand s m y) c
  { mem := selected (writesM d) r.out
    d := selected (writesD d) r.out
    a := selected (writesA d) r.out
    next := nextPc s (jumpCond j r.zr r.ng) }

/-- Step 3 of R130: what an address-instruction writes (42_address_instruction R150). -/
def addressWrites (s : State) (value : BitVec 15) : Writes where
  mem := none
  d := none
  a := some (value.setWidth 16)
  next := s.pc.toNat + 1

/-- A tick that executes a compute-instruction with these fields (R160). -/
def compute (y : Operand) (c : Code) (d : Dest) (j : Jump) (s : State) : Result :=
  tickWith s (computeWrites s y c d j)

/-- A tick that executes an address-instruction (R150). -/
def loadAddress (value : BitVec 15) (s : State) : Result :=
  tickWith s fun _ => addressWrites s value

/-- The two kinds of the instruction set (30_encoding R60) over their fields: what every constructor's meaning comes to
(`Laws.exec_eq_runFields`). -/
def runFields (f : Fields) (s : State) : Result :=
  match f with
  | .address value => loadAddress value s
  | .compute y c d j => compute y c d j s

end Sys2Proof.Machine
end

