-- ==== Sys2Proof/Machine/Address.lean ====
section
/-! DEFINITION. The address-instruction (42_address_instruction R150 to R152). -/

namespace Sys2Proof.Machine

/-- `@value` (R150): `A <- zext_16(value)`, `PC <- PC0 + 1`; `D` and RAM are untouched, `ML` is refreshed by step 1. -/
def execAtValue (value : BitVec 15) (s : State) : Result := loadAddress value s

end Sys2Proof.Machine
end

