-- ==== Sys2Proof/Machine/Compute.lean ====
section
/-! DEFINITION. The general compute-instruction and the 28 computations with a mnemonic (43_compute_instruction R160 to R189). -/

namespace Sys2Proof.Machine

/-- `dest=comp;jump` (R160): any operand, control code, destination and jump. -/
def execCompute (y : Operand) (c : Code) (d : Dest) (j : Jump) (s : State) : Result := compute y c d j s

/-- Computation `0` (R162). -/
def execComp0 (d : Dest) (j : Jump) (s : State) : Result := compute .addr 0b101010#6 d j s

/-- Computation `1` (R163). -/
def execComp1 (d : Dest) (j : Jump) (s : State) : Result := compute .addr 0b111111#6 d j s

/-- Computation `-1` (R164). -/
def execCompNeg1 (d : Dest) (j : Jump) (s : State) : Result := compute .addr 0b111010#6 d j s

/-- Computation `D` (R165). -/
def execCompD (d : Dest) (j : Jump) (s : State) : Result := compute .addr 0b001100#6 d j s

/-- Computation `A` (R166). -/
def execCompA (d : Dest) (j : Jump) (s : State) : Result := compute .addr 0b110000#6 d j s

/-- Computation `!D` (R167). -/
def execCompNotD (d : Dest) (j : Jump) (s : State) : Result := compute .addr 0b001101#6 d j s

/-- Computation `!A` (R168). -/
def execCompNotA (d : Dest) (j : Jump) (s : State) : Result := compute .addr 0b110001#6 d j s

/-- Computation `-D` (R169). -/
def execCompNegD (d : Dest) (j : Jump) (s : State) : Result := compute .addr 0b001111#6 d j s

/-- Computation `-A` (R170). -/
def execCompNegA (d : Dest) (j : Jump) (s : State) : Result := compute .addr 0b110011#6 d j s

/-- Computation `D+1` (R171). -/
def execCompDPlus1 (d : Dest) (j : Jump) (s : State) : Result := compute .addr 0b011111#6 d j s

/-- Computation `A+1` (R172). -/
def execCompAPlus1 (d : Dest) (j : Jump) (s : State) : Result := compute .addr 0b110111#6 d j s

/-- Computation `D-1` (R173). -/
def execCompDMinus1 (d : Dest) (j : Jump) (s : State) : Result := compute .addr 0b001110#6 d j s

/-- Computation `A-1` (R174). -/
def execCompAMinus1 (d : Dest) (j : Jump) (s : State) : Result := compute .addr 0b110010#6 d j s

/-- Computation `D+A` (R175). -/
def execCompDPlusA (d : Dest) (j : Jump) (s : State) : Result := compute .addr 0b000010#6 d j s

/-- Computation `D-A` (R176). -/
def execCompDMinusA (d : Dest) (j : Jump) (s : State) : Result := compute .addr 0b010011#6 d j s

/-- Computation `A-D` (R177). -/
def execCompAMinusD (d : Dest) (j : Jump) (s : State) : Result := compute .addr 0b000111#6 d j s

/-- Computation `D&A` (R178). -/
def execCompDAndA (d : Dest) (j : Jump) (s : State) : Result := compute .addr 0b000000#6 d j s

/-- Computation `D|A` (R179). -/
def execCompDOrA (d : Dest) (j : Jump) (s : State) : Result := compute .addr 0b010101#6 d j s

/-- Computation `M` (R180). -/
def execCompM (d : Dest) (j : Jump) (s : State) : Result := compute .mem 0b110000#6 d j s

/-- Computation `!M` (R181). -/
def execCompNotM (d : Dest) (j : Jump) (s : State) : Result := compute .mem 0b110001#6 d j s

/-- Computation `-M` (R182). -/
def execCompNegM (d : Dest) (j : Jump) (s : State) : Result := compute .mem 0b110011#6 d j s

/-- Computation `M+1` (R183). -/
def execCompMPlus1 (d : Dest) (j : Jump) (s : State) : Result := compute .mem 0b110111#6 d j s

/-- Computation `M-1` (R184). -/
def execCompMMinus1 (d : Dest) (j : Jump) (s : State) : Result := compute .mem 0b110010#6 d j s

/-- Computation `D+M` (R185). -/
def execCompDPlusM (d : Dest) (j : Jump) (s : State) : Result := compute .mem 0b000010#6 d j s

/-- Computation `D-M` (R186). -/
def execCompDMinusM (d : Dest) (j : Jump) (s : State) : Result := compute .mem 0b010011#6 d j s

/-- Computation `M-D` (R187). -/
def execCompMMinusD (d : Dest) (j : Jump) (s : State) : Result := compute .mem 0b000111#6 d j s

/-- Computation `D&M` (R188). -/
def execCompDAndM (d : Dest) (j : Jump) (s : State) : Result := compute .mem 0b000000#6 d j s

/-- Computation `D|M` (R189). -/
def execCompDOrM (d : Dest) (j : Jump) (s : State) : Result := compute .mem 0b010101#6 d j s

end Sys2Proof.Machine
end

