-- ==== Sys2Proof/Machine/Destination.lean ====
section
/-! DEFINITION. The compute-instruction by its destination (43_compute_instruction R190 to R198). -/

namespace Sys2Proof.Machine

/-- Destination `000`, `null` (R191), with any computation and jump. -/
def execDestNull (y : Operand) (c : Code) (j : Jump) (s : State) : Result := compute y c .null j s

/-- Destination `001`, `M` (R192), with any computation and jump. -/
def execDestM (y : Operand) (c : Code) (j : Jump) (s : State) : Result := compute y c .M j s

/-- Destination `010`, `D` (R193), with any computation and jump. -/
def execDestD (y : Operand) (c : Code) (j : Jump) (s : State) : Result := compute y c .D j s

/-- Destination `011`, `MD` (R194), with any computation and jump. -/
def execDestMD (y : Operand) (c : Code) (j : Jump) (s : State) : Result := compute y c .MD j s

/-- Destination `100`, `A` (R195), with any computation and jump. -/
def execDestA (y : Operand) (c : Code) (j : Jump) (s : State) : Result := compute y c .A j s

/-- Destination `101`, `AM` (R196), with any computation and jump. -/
def execDestAM (y : Operand) (c : Code) (j : Jump) (s : State) : Result := compute y c .AM j s

/-- Destination `110`, `AD` (R197), with any computation and jump. -/
def execDestAD (y : Operand) (c : Code) (j : Jump) (s : State) : Result := compute y c .AD j s

/-- Destination `111`, `AMD` (R198), with any computation and jump. -/
def execDestAMD (y : Operand) (c : Code) (j : Jump) (s : State) : Result := compute y c .AMD j s

end Sys2Proof.Machine
end

