-- ==== Sys2Proof/Machine/JumpRows.lean ====
section
/-! DEFINITION. The compute-instruction by its jump (44_jump R200 to R209). -/

namespace Sys2Proof.Machine

/-- Jump `000`, `null` (R201), with any computation and destination. -/
def execJumpNull (y : Operand) (c : Code) (d : Dest) (s : State) : Result := compute y c d .null s

/-- Jump `001`, `JGT` (R202), with any computation and destination. -/
def execJumpJGT (y : Operand) (c : Code) (d : Dest) (s : State) : Result := compute y c d .JGT s

/-- Jump `010`, `JEQ` (R203), with any computation and destination. -/
def execJumpJEQ (y : Operand) (c : Code) (d : Dest) (s : State) : Result := compute y c d .JEQ s

/-- Jump `011`, `JGE` (R204), with any computation and destination. -/
def execJumpJGE (y : Operand) (c : Code) (d : Dest) (s : State) : Result := compute y c d .JGE s

/-- Jump `100`, `JLT` (R205), with any computation and destination. -/
def execJumpJLT (y : Operand) (c : Code) (d : Dest) (s : State) : Result := compute y c d .JLT s

/-- Jump `101`, `JNE` (R206), with any computation and destination. -/
def execJumpJNE (y : Operand) (c : Code) (d : Dest) (s : State) : Result := compute y c d .JNE s

/-- Jump `110`, `JLE` (R207), with any computation and destination. -/
def execJumpJLE (y : Operand) (c : Code) (d : Dest) (s : State) : Result := compute y c d .JLE s

/-- Jump `111`, `JMP` (R208), with any computation and destination. -/
def execJumpJMP (y : Operand) (c : Code) (d : Dest) (s : State) : Result := compute y c d .JMP s

end Sys2Proof.Machine
end

