-- ==== Sys2Proof/Machine/Dispatch.lean ====
section
/-! DEFINITION. What each instruction does: one arm per constructor. -/

namespace Sys2Proof.Machine

def exec (i : Instr) (s : State) : Host.Outcome State Fault Refusal :=
  match i with
  | .atValue value => Sys2Proof.Machine.execAtValue value s
  | .compute y c d j => Sys2Proof.Machine.execCompute y c d j s
  | .comp0 d j => Sys2Proof.Machine.execComp0 d j s
  | .comp1 d j => Sys2Proof.Machine.execComp1 d j s
  | .compNeg1 d j => Sys2Proof.Machine.execCompNeg1 d j s
  | .compD d j => Sys2Proof.Machine.execCompD d j s
  | .compA d j => Sys2Proof.Machine.execCompA d j s
  | .compNotD d j => Sys2Proof.Machine.execCompNotD d j s
  | .compNotA d j => Sys2Proof.Machine.execCompNotA d j s
  | .compNegD d j => Sys2Proof.Machine.execCompNegD d j s
  | .compNegA d j => Sys2Proof.Machine.execCompNegA d j s
  | .compDPlus1 d j => Sys2Proof.Machine.execCompDPlus1 d j s
  | .compAPlus1 d j => Sys2Proof.Machine.execCompAPlus1 d j s
  | .compDMinus1 d j => Sys2Proof.Machine.execCompDMinus1 d j s
  | .compAMinus1 d j => Sys2Proof.Machine.execCompAMinus1 d j s
  | .compDPlusA d j => Sys2Proof.Machine.execCompDPlusA d j s
  | .compDMinusA d j => Sys2Proof.Machine.execCompDMinusA d j s
  | .compAMinusD d j => Sys2Proof.Machine.execCompAMinusD d j s
  | .compDAndA d j => Sys2Proof.Machine.execCompDAndA d j s
  | .compDOrA d j => Sys2Proof.Machine.execCompDOrA d j s
  | .compM d j => Sys2Proof.Machine.execCompM d j s
  | .compNotM d j => Sys2Proof.Machine.execCompNotM d j s
  | .compNegM d j => Sys2Proof.Machine.execCompNegM d j s
  | .compMPlus1 d j => Sys2Proof.Machine.execCompMPlus1 d j s
  | .compMMinus1 d j => Sys2Proof.Machine.execCompMMinus1 d j s
  | .compDPlusM d j => Sys2Proof.Machine.execCompDPlusM d j s
  | .compDMinusM d j => Sys2Proof.Machine.execCompDMinusM d j s
  | .compMMinusD d j => Sys2Proof.Machine.execCompMMinusD d j s
  | .compDAndM d j => Sys2Proof.Machine.execCompDAndM d j s
  | .compDOrM d j => Sys2Proof.Machine.execCompDOrM d j s
  | .destNull y c j => Sys2Proof.Machine.execDestNull y c j s
  | .destM y c j => Sys2Proof.Machine.execDestM y c j s
  | .destD y c j => Sys2Proof.Machine.execDestD y c j s
  | .destMD y c j => Sys2Proof.Machine.execDestMD y c j s
  | .destA y c j => Sys2Proof.Machine.execDestA y c j s
  | .destAM y c j => Sys2Proof.Machine.execDestAM y c j s
  | .destAD y c j => Sys2Proof.Machine.execDestAD y c j s
  | .destAMD y c j => Sys2Proof.Machine.execDestAMD y c j s
  | .jumpNull y c d => Sys2Proof.Machine.execJumpNull y c d s
  | .jumpJGT y c d => Sys2Proof.Machine.execJumpJGT y c d s
  | .jumpJEQ y c d => Sys2Proof.Machine.execJumpJEQ y c d s
  | .jumpJGE y c d => Sys2Proof.Machine.execJumpJGE y c d s
  | .jumpJLT y c d => Sys2Proof.Machine.execJumpJLT y c d s
  | .jumpJNE y c d => Sys2Proof.Machine.execJumpJNE y c d s
  | .jumpJLE y c d => Sys2Proof.Machine.execJumpJLE y c d s
  | .jumpJMP y c d => Sys2Proof.Machine.execJumpJMP y c d s

end Sys2Proof.Machine
end

