-- ==== Sys2Proof/Machine/Step.lean ====
section
/-! DEFINITION. One tick, and the placing of an instruction where the next tick fetches. -/

namespace Sys2Proof.Machine

/-- `tick()` as a state transition (41_cycle_step R130, 45_host_interface R225): fetch under the first two guards, then
execute. The ROM fetch guard is `fetch`'s, not `exec`'s (DESIGN CHOICE, safe: log 18). The notifications of the tick are
`Machine.tick`'s output. -/
def step (s : State) : Host.Outcome State Fault Refusal :=
  match fetch s with
  | .error f => reject f
  | .ok i => exec i s

/-- The state with an instruction of `nbits` bits (the bits above them 0) stored at `ROM[PC]`. It stands for a load by the
host (DEDUCED, safe: log 11); at the state after construct the next step fetches and runs it. -/
def State.withFetchWord (s : State) (nbits w : Nat) : State :=
  placeAtPc s (BitVec.ofNat 16 (w % 2 ^ nbits))

end Sys2Proof.Machine
end

