-- ==== Sys2Proof/Machine/Disasm.lean ====
section
/-! DEFINITION. The text of an instruction word (30_encoding R71 to R75, R78): a debug aid that the executor never reads
(45_host_interface R233). -/

namespace Sys2Proof.Machine

/-- The `comp` part; a pair with no row in R73 renders as `?` (R78). -/
def compText (y : Operand) (c : Code) : String :=
  match compRow y c with
  | some r => r.text
  | none => "?"

/-- The `dest=` part, omitted for `000` (R72, R74; first spelling of the two of D19). -/
def destText : Dest → String
  | .null => ""
  | .M => "M="
  | .D => "D="
  | .MD => "MD="
  | .A => "A="
  | .AM => "AM="
  | .AD => "AD="
  | .AMD => "AMD="

/-- The `;jump` part, omitted for `000` (R72, R75). -/
def jumpText : Jump → String
  | .null => ""
  | .JGT => ";JGT"
  | .JEQ => ";JEQ"
  | .JGE => ";JGE"
  | .JLT => ";JLT"
  | .JNE => ";JNE"
  | .JLE => ";JLE"
  | .JMP => ";JMP"

/-- The disassembly of a word: `@value` in decimal, or `dest=comp;jump` (R71, R72). -/
def disasm (w : Word) : String :=
  match decodeFields w with
  | .address v => "@" ++ toString v.toNat
  | .compute y c d j => destText d ++ compText y c ++ jumpText j

end Sys2Proof.Machine
end

