-- ==== Sys2Proof/Machine/HostPort.lean ====
section
/-! DEFINITION. The host's side of the machine (45_host_interface): its calls, the notifications of a tick, the loader. -/

namespace Sys2Proof.Machine

/-! ### Notifications (20_memory R47, 41_cycle_step R140, R228) -/

/-- What the tick that executes `i` from `s` notifies: the store of a compute-instruction into the screen range, nothing
otherwise and nothing when the tick is rejected (R140, R252). -/
def emits (i : Instr) (s : State) : List Note :=
  match exec i s with
  | .next _ =>
    match i.fields with
    | .address _ => []
    | .compute y c d _ =>
      if writesM d then notify s.a (aluOut s.d (yOperand s (Memory.get s.ram s.a.toNat) y) c) else []
  | .fault _ => []
  | .refused _ => []

/-- The notifications of the next tick. -/
def tickNotes (s : State) : List Note :=
  match fetch s with
  | .error _ => []
  | .ok i => emits i s

/-- `tick()` with everything it answers: the next state and the notifications, or a fault (R225). -/
def tick (s : State) : Host.Outcome (State × List Note) Fault Refusal :=
  match step s with
  | .next t => .next (t, tickNotes s)
  | .fault f => .fault f
  | .refused r => .refused r

/-! ### Program loading (30_encoding R76, R222, R223) -/

/-- One line of program text, as the characters it holds; splitting a file is the host's (DEDUCED, safe: log 16). -/
abbrev Line := List Char

/-- The line is exactly 16 characters of `0` and `1` (R76). -/
def lineOk (l : Line) : Bool := decide (l.length = 16) && l.all fun ch => decide (ch = '0') || decide (ch = '1')

/-- The word of a line: character `k` is bit `15 - k` (R76). -/
def lineWord (l : Line) : Word :=
  BitVec.ofNat 16 (l.foldl (fun n ch => 2 * n + (if ch = '1' then 1 else 0)) 0)

/-- The malformed lines of a text whose first line has index `k`. -/
def badLines : Nat → List Line → List LoadError
  | _, [] => []
  | k, l :: rest => if lineOk l then badLines (k + 1) rest else .line k :: badLines (k + 1) rest

/-- Every reason to reject the text (R222). -/
def loadErrors (lines : List Line) : List LoadError :=
  (if config.romSize < lines.length then [.capacity] else []) ++ badLines 0 lines

/-- The memory that holds the words from address `k` on and 0 everywhere else (R222, R223a). -/
def memoryOf : Nat → List Word → Memory
  | _, [] => []
  | k, w :: rest => if w = 0#16 then memoryOf (k + 1) rest else (k, w) :: memoryOf (k + 1) rest

/-- `load_program(lines)` (R222): all or nothing; ROM alone changes (R223b). Which of several causes is reported is a free
value (DESIGN CHOICE, safe: log 12). -/
def loadProgram (lines : List Line) (s : State) : Except Fault State :=
  match loadErrors lines with
  | [] => .ok { s with rom := memoryOf 0 (lines.map lineWord) }
  | e :: rest => .error (.formatError ((e :: rest).getD (Config.reportedCause lines % (rest.length + 1)) e))

/-! ### The other calls -/

/-- `reset()` (R224, R31): registers and RAM zeroed, ROM untouched. -/
def resetMachine (s : State) : State := { State.reset with rom := s.rom }

/-- `inject_key(code)`: a host write at the keyboard address (R229). -/
def injectKey (code : Word) (s : State) : Except Fault (State × List Note) :=
  memWrite s (BitVec.ofNat 16 config.kbdAddr) code

/-- The calls of R220 from the host to the core. The spec gives the host's `address` no width (R226, R227; 91_not_in_source N9):
it is a word here, so an address of 65536 or more cannot be posed (DESIGN CHOICE, unsafe for an implementation that takes a
wider one and reduces it: log 22). -/
inductive HostCall where
  /-- `construct()` (R221). -/
  | construct
  /-- `load_program(lines)` (R222). -/
  | loadProgram (lines : List Line)
  /-- `reset()` (R224). -/
  | reset
  /-- `tick()` (R225). -/
  | tick
  /-- `read_memory(address)` (R226), the address a word (log 22). -/
  | readMemory (addr : Word)
  /-- `write_memory(address, value)` (R227), the address a word (log 22). -/
  | writeMemory (addr value : Word)
  /-- `inject_key(code)` (R229). -/
  | injectKey (code : Word)
  /-- `clear_key()` (R229). -/
  | clearKey
  deriving DecidableEq, Repr

/-- What an accepted call leaves and answers. -/
structure Reply where
  state : State
  /-- The word a `read_memory` returns. -/
  value : Option Word
  /-- The write notifications of the call, in order (R228). -/
  notes : List Note
  deriving DecidableEq, Repr

/-- The reply to a host write, or its fault. -/
def writeReply : Except Fault (State × List Note) → Host.Outcome Reply Fault Refusal
  | .ok p => .next ⟨p.1, none, p.2⟩
  | .error f => .fault f

/-- One host call: an indivisible transaction between ticks, or a tick (R220). -/
def call (c : HostCall) (s : State) : Host.Outcome Reply Fault Refusal :=
  match c with
  | .construct => .next ⟨State.reset, none, []⟩
  | .loadProgram lines =>
    match Machine.loadProgram lines s with
    | .ok t => .next ⟨t, none, []⟩
    | .error f => .fault f
  | .reset => .next ⟨resetMachine s, none, []⟩
  | .tick =>
    match Machine.tick s with
    | .next p => .next ⟨p.1, none, p.2⟩
    | .fault f => .fault f
    | .refused r => .refused r
  | .readMemory addr =>
    match memRead s addr with
    | .ok v => .next ⟨s, some v, []⟩
    | .error f => .fault f
  | .writeMemory addr value => writeReply (memWrite s addr value)
  | .injectKey code => writeReply (Machine.injectKey code s)
  | .clearKey => writeReply (Machine.injectKey 0#16 s)

/-- The state a call leaves: a rejected call leaves the state it started from (60_exceptions R252; DEDUCED, unsafe for an
implementation that commits a part: log 9). -/
def afterCall (c : HostCall) (s : State) : State :=
  match call c s with
  | .next r => r.state
  | .fault _ => s
  | .refused _ => s

/-- The notifications a call emits; a rejected call emits none (R252). -/
def callNotes (c : HostCall) (s : State) : List Note :=
  match call c s with
  | .next r => r.notes
  | .fault _ => []
  | .refused _ => []

/-- A run of the machine: host calls, ticks among them, in one total order (20_memory R53; DEDUCED, safe: log 15), with the screen write trace,
the notifications of all of them in order (R228). -/
def session : List HostCall → State → State × List Note
  | [], s => (s, [])
  | c :: rest, s =>
    let p := session rest (afterCall c s)
    (p.1, callNotes c s ++ p.2)

/-! ### The optional step observation (R232) -/

/-- The registers a debug snapshot shows; it is the one place where the stored `ML` is visible (10_state R28c). The source
does not say what the snapshot contains beyond the registers (R232): it contains nothing more here (DESIGN CHOICE, unsafe for
a claim about the contents of a snapshot: log 21). -/
structure Snapshot where
  pc : Word
  a : Word
  d : Word
  ml : Word
  deriving DecidableEq, Repr

/-- The registers of a state. -/
def snapshot (s : State) : Snapshot := ⟨s.pc, s.a, s.d, s.ml⟩

/-- `on_step(pc, disassembled_text, register_snapshot)`. -/
structure StepEvent where
  pc : Word
  text : String
  registers : Snapshot
  deriving DecidableEq, Repr

/-- The `on_step` observation of the next tick, if it is accepted: pure, no rule depends on it (R232). Whether `pc` and the
snapshot are those before or after the step is not said: free values (DESIGN CHOICE, unsafe if they mix:
log 13). -/
def onStep (s : State) : Option StepEvent :=
  match step s with
  | .next t =>
    some ⟨(if Config.stepPcAfter then t else s).pc, disasm (Memory.get s.rom s.pc.toNat),
      snapshot (if Config.stepRegsAfter then t else s)⟩
  | .fault _ => none
  | .refused _ => none

end Sys2Proof.Machine
end

