-- ==== Sys2Proof/Safety.lean ====
section
/-! DEFINITION. The invariant of the machine's states and what counts as a safe run. -/

namespace Sys2Proof.Machine

/-- The state invariant: the program counter is inside ROM (10_state R24), and both memories are in canonical form and hold
words at addresses that exist only (20_memory R40, R51). -/
structure StateInv (s : State) : Prop where
  pc_lt : s.pc.toNat < config.romSize
  ram_wf : Memory.wf s.ram = true
  ram_within : Memory.within s.ram config.ramSize = true
  rom_wf : Memory.wf s.rom = true
  rom_within : Memory.within s.rom config.romSize = true

/-- The next tick is accepted (70_reset_and_hazards R286 says what software must respect for it). -/
def Proceeds (s : State) : Prop := ∃ t, step s = .next t

/-- A safe run of `n` ticks: none of them is rejected. A faulted run is never final (60_exceptions R253). -/
def SafeFor (n : Nat) (s : State) : Prop := ∃ t, Host.Core.run Sys2Proof.core n s = .next t

/-- The states some list of host calls leads to from construct. -/
def Reachable (s : State) : Prop := ∃ calls, (session calls State.reset).1 = s

end Sys2Proof.Machine
end

