-- ==== Sys2Proof/WellFormed.lean ====
section
/-! DEFINITION. Which terms of `Instr` are the instruction of some word. -/

namespace Sys2Proof

/-- A pair (a-bit, control code) with no mnemonic in 30_encoding R73: undocumented but defined (R70). -/
def undocumented (y : Operand) (c : Code) : Bool := (compRow y c).isNone

/-- The terms the decoder yields. The rows of the opcode table overlap, so a word is named by the most specific row it
matches: its computation row when it has one (R73), else a row chosen by the shape of R72. Every other term is an
instruction too (its meaning and its encoding are given), but the decoder names its word by another row (DESIGN CHOICE,
safe: log 4). -/
def Instr.wf : Instr → Bool
  | .compute y c d j => undocumented y c && decide (d ≠ .null) && decide (j ≠ .null)
  | .destNull y c j => undocumented y c && decide (j = .null) && decide (y = .addr)
  | .destM y c j | .destD y c j | .destMD y c j | .destA y c j | .destAM y c j | .destAD y c j
  | .destAMD y c j => undocumented y c && decide (j = .null)
  | .jumpNull y c d => undocumented y c && decide (d = .null) && decide (y = .mem)
  | .jumpJGT y c d | .jumpJEQ y c d | .jumpJGE y c d | .jumpJLT y c d | .jumpJNE y c d | .jumpJLE y c d
  | .jumpJMP y c d => undocumented y c && decide (d = .null)
  | .atValue _ => true
  | .comp0 _ _ | .comp1 _ _ | .compNeg1 _ _ | .compD _ _ | .compA _ _ | .compNotD _ _ | .compNotA _ _
  | .compNegD _ _ | .compNegA _ _ | .compDPlus1 _ _ | .compAPlus1 _ _ | .compDMinus1 _ _
  | .compAMinus1 _ _ | .compDPlusA _ _ | .compDMinusA _ _ | .compAMinusD _ _ | .compDAndA _ _
  | .compDOrA _ _ | .compM _ _ | .compNotM _ _ | .compNegM _ _ | .compMPlus1 _ _ | .compMMinus1 _ _
  | .compDPlusM _ _ | .compDMinusM _ _ | .compMMinusD _ _ | .compDAndM _ _ | .compDOrM _ _ => true

end Sys2Proof
end

