-- ==== Sys2Proof/Certificates/Slice0/Obligations.lean ====
section
/-! DEFINITION. The statements for the provers. The helpers under `Sys2Proof.Claims` are written from the spec's rules, apart from
the model's own operations, so that a statement says what the rule says. -/

namespace Sys2Proof.Claims

open Sys2Proof.Machine

/-! ### What the rules speak of -/

/-- `RAM[A0]`. -/
def ramAtA (s : State) : Word := Memory.get s.ram s.a.toNat

/-- The ALU's second operand (43_compute_instruction R161). -/
def secondOperand (s : State) : Operand → Word
  | .addr => s.a
  | .mem => ramAtA s

/-- Whether a jump is taken, by the signed value of the result (44_jump R201 to R208). -/
def jumps : Jump → Word → Bool
  | .null, _ => false
  | .JGT, out => decide (0 < out.toInt)
  | .JEQ, out => decide (out.toInt = 0)
  | .JGE, out => decide (0 ≤ out.toInt)
  | .JLT, out => decide (out.toInt < 0)
  | .JNE, out => decide (out.toInt ≠ 0)
  | .JLE, out => decide (out.toInt ≤ 0)
  | .JMP, _ => true

/-- The destination includes memory (30_encoding R74). -/
def storesTo (d : Dest) : Bool := decide (d = .M ∨ d = .MD ∨ d = .AM ∨ d = .AMD)

/-- The next program counter as an integer (44_jump R209). -/
def nextOf (s : State) (taken : Bool) : Nat := if taken then s.a.toNat else s.pc.toNat + 1

/-- No guard of 41_cycle_step R137 that an executed instruction meets fires: the address register is inside RAM, a store does
not go to the keyboard register, and the next program counter is inside ROM. -/
def Accepts (s : State) (stores taken : Bool) : Prop :=
  s.a.toNat < config.ramSize ∧ (stores = true → s.a.toNat ≠ config.kbdAddr) ∧ nextOf s taken < config.romSize

/-- The program counter after an accepted tick (R209). -/
def pcAfter (s : State) (taken : Bool) : Word := if taken then s.a else s.pc + 1#16

/-- The state after an accepted compute-instruction with result `out` (43_compute_instruction R160, R190): each selected
destination receives `out`, the memory word at the old `A`; the latch holds the old `RAM[A0]` (10_state R28). -/
def afterCompute (s : State) (d : Dest) (taken : Bool) (out : Word) : State where
  pc := pcAfter s taken
  a := if d = .A ∨ d = .AM ∨ d = .AD ∨ d = .AMD then out else s.a
  d := if d = .D ∨ d = .MD ∨ d = .AD ∨ d = .AMD then out else s.d
  ml := ramAtA s
  ram := if storesTo d then Memory.set s.ram s.a.toNat out else s.ram
  rom := s.rom

/-- The destination that bits 5 to 3 of a word name (30_encoding R74). -/
def destOfCode (w : Word) : Dest :=
  match ((w >>> 3) &&& 7#16).toNat with
  | 0 => .null
  | 1 => .M
  | 2 => .D
  | 3 => .MD
  | 4 => .A
  | 5 => .AM
  | 6 => .AD
  | _ => .AMD

/-- The jump a word's low three bits name (R75). -/
def jumpOfCode (w : Word) : Jump :=
  match (w &&& 7#16).toNat with
  | 0 => .null
  | 1 => .JGT
  | 2 => .JEQ
  | 3 => .JGE
  | 4 => .JLT
  | 5 => .JNE
  | 6 => .JLE
  | _ => .JMP

/-- The row of a computation mnemonic: the words that match it under the mask `0x9FC0` decode to its instruction with the
destination and jump of their low six bits, and the instruction completes with the result `out` of the pre-cycle state
whenever no guard fires. -/
def CompMeans (i : Dest → Jump → Instr) (pattern : Word) (out : State → Word) : Prop :=
  (∀ w : Word, w &&& 0x9FC0#16 = pattern → decode w = i (destOfCode w) (jumpOfCode w)) ∧
    ∀ d j s, Accepts s (storesTo d) (jumps j (out s)) →
      exec (i d j) s = .next (afterCompute s d (jumps j (out s)) (out s))

/-! ### The step function of 41_cycle_step R130, over the bits of the word, with no instruction type -/

/-- The ALU of 40_alu R80 over its six flags. -/
def refAlu (x y : Word) (zx nx zy ny f no : Bool) : Word :=
  let x1 := if zx then 0x0000#16 else x
  let x2 := if nx then ~~~x1 else x1
  let y1 := if zy then 0x0000#16 else y
  let y2 := if ny then ~~~y1 else y1
  let r := if f then x2 + y2 else x2 &&& y2
  if no then ~~~r else r

/-- `ROM[PC]`. -/
def refWord (s : State) : Word := Memory.get s.rom s.pc.toNat

/-- The result a compute-instruction at `ROM[PC]` computes. -/
def refOut (s : State) : Word :=
  let ins := refWord s
  refAlu s.d (if ins.getLsbD 12 then ramAtA s else s.a) (ins.getLsbD 11) (ins.getLsbD 10) (ins.getLsbD 9)
    (ins.getLsbD 8) (ins.getLsbD 7) (ins.getLsbD 6)

/-- The word at `ROM[PC]` is a compute-instruction that stores. -/
def refStores (s : State) : Bool := (refWord s).getLsbD 15 && (refWord s).getLsbD 3

/-- The word at `ROM[PC]` is a compute-instruction whose jump is taken, by the bit form of 44_jump R200. -/
def refTaken (s : State) : Bool :=
  let ins := refWord s
  let zr := decide (refOut s = 0x0000#16)
  let ng := (refOut s).getLsbD 15
  ins.getLsbD 15 &&
    ((ins.getLsbD 2 && ng) || (ins.getLsbD 1 && zr) || (ins.getLsbD 0 && !zr && !ng))

/-- The next program counter of the tick, an integer. -/
def refNext (s : State) : Nat := nextOf s (refTaken s)

/-- `tick()` of R130. -/
def refTick (s : State) : Host.Outcome (State × List Note) Fault Refusal :=
  if config.ramSize ≤ s.a.toNat then .fault (.outOfRange .ram s.a.toNat)
  else if config.romSize ≤ s.pc.toNat then .fault (.outOfRange .rom s.pc.toNat)
  else if (refWord s).getLsbD 15 = false then
    if config.romSize ≤ refNext s then .fault (.outOfRange .rom (refNext s))
    else
      .next
        ({ pc := BitVec.ofNat 16 (refNext s)
           a := refWord s &&& 0x7FFF#16
           d := s.d
           ml := ramAtA s
           ram := s.ram
           rom := s.rom }, [])
  else if refStores s = true ∧ s.a.toNat = config.kbdAddr then .fault (.keyboardStore s.a.toNat)
  else if config.romSize ≤ refNext s then .fault (.outOfRange .rom (refNext s))
  else
    .next
      ({ pc := BitVec.ofNat 16 (refNext s)
         a := if (refWord s).getLsbD 5 then refOut s else s.a
         d := if (refWord s).getLsbD 4 then refOut s else s.d
         ml := ramAtA s
         ram := if (refWord s).getLsbD 3 then Memory.set s.ram s.a.toNat (refOut s) else s.ram
         rom := s.rom },
        if (refWord s).getLsbD 3 = true ∧ config.screenBase ≤ s.a.toNat ∧
            s.a.toNat < config.screenBase + config.screenLen
        then [⟨s.a, refOut s⟩] else [])

/-! ### Comparing outcomes -/

/-- The outcome with a function applied to its next state. -/
def mapNext (f : State → State) : Result → Result
  | .next t => .next (f t)
  | .fault e => .fault e
  | .refused r => .refused r

/-- A display shows the screen range: it shows every word RAM holds there. -/
def Shows (display : Nat → Word) (s : State) : Prop :=
  ∀ k, config.screenBase ≤ k → k < config.screenBase + config.screenLen → display k = Memory.get s.ram k

/-- What a display that starts with the word `v` at address `k` and copies every notification shows there. -/
def mirrored (notes : List Note) (k : Nat) (v : Word) : Word :=
  notes.foldl (fun u n => if n.addr.toNat = k then n.value else u) v

/-- The call does not zero the machine. -/
def keepsMachine : HostCall → Bool
  | .construct => false
  | .reset => false
  | .loadProgram _ => true
  | .tick => true
  | .readMemory _ => true
  | .writeMemory _ _ => true
  | .injectKey _ => true
  | .clearKey => true

/-- The call is not one by which the host writes the keyboard register (20_memory R48). -/
def keepsKeyboard : HostCall → Bool
  | .construct => false
  | .reset => false
  | .loadProgram _ => true
  | .tick => true
  | .readMemory _ => true
  | .writeMemory addr _ => decide (addr.toNat ≠ config.kbdAddr)
  | .injectKey _ => false
  | .clearKey => false

/-- A line of program text is well formed (30_encoding R76). -/
def LineOk (l : Line) : Prop := l.length = 16 ∧ ∀ ch ∈ l, ch = '0' ∨ ch = '1'

/-- The closed forms of 40_alu R84, in the order of the codes `000000` to `111111`. -/
def closedForms (x y : Word) : List Word :=
  [x &&& y, ~~~(x &&& y), x + y, -x - y - 1, x &&& ~~~y, ~~~x ||| y, x - y - 1, y - x] ++
  [0, -1, x, ~~~x, x, ~~~x, x - 1, -x] ++
  [~~~x &&& y, x ||| ~~~y, y - x - 1, x - y, ~~~(x ||| y), x ||| y, -x - y - 2, x + y + 1] ++
  [0, -1, ~~~x, x, ~~~x, x, -x - 2, x + 1] ++
  [0, -1, y, ~~~y, 0, -1, ~~~y, y] ++
  [0, -1, 0, -1, 0, -1, -1, 0] ++
  [y, ~~~y, y - 1, -y, ~~~y, y, -y - 2, y + 1] ++
  [0, -1, -1, 0, -1, 0, -2, 1]

end Sys2Proof.Claims

open Sys2Proof Sys2Proof.Machine Sys2Proof.Claims

/-! ## Encoding -/

/-- 30_encoding R61 to R75: words written out from the formats decode to the instructions they stand for, one for each
family (address-instruction, computation, destination, jump and general rows). The row a word without a mnemonic is named by
is the model's choice (log 4). -/
def Obligations.SampleWordsDecode : Prop :=
  decode 0b0000000000000101#16 = .atValue 5#15 ∧
  decode 0b1110101010000111#16 = .comp0 .null .JMP ∧
  decode 0b1110111111001000#16 = .comp1 .M .null ∧
  decode 0b1111110010101000#16 = .compMMinus1 .AM .null ∧
  decode 0b1110110111110111#16 = .compAPlus1 .AD .JMP ∧
  decode 0b1000000010010000#16 = .compDPlusA .D .null ∧
  decode 0b1110010111010000#16 = .destD .addr 0b010111#6 .null ∧
  decode 0b1111101010000001#16 = .jumpJGT .mem 0b101010#6 .null ∧
  decode 0b1111111110111101#16 = .compute .mem 0b111110#6 .AMD .JNE

/-- 30_encoding R63 to R67: where each field of a word stands. -/
def Obligations.FieldsStandWhereTheFormatsSay : Prop :=
  ∀ w : Word, (decode w).fields =
    if w.getLsbD 15 then
      .compute (if w.getLsbD 12 then .mem else .addr) (BitVec.ofNat 6 (w.toNat / 64 % 64)) (destOfCode w) (jumpOfCode w)
    else .address (BitVec.ofNat 15 (w &&& 0x7FFF#16).toNat)

/-- Decoding the word of a well-formed instruction gives it back, every operand at every value (R60 to R70, R79). -/
def Obligations.DecodeEncodeRoundTrip : Prop := ∀ i : Instr, i.wf = true → decode (encode i) = i

/-- 30_encoding R68, R69: every word is a well-formed instruction, whose word is the same one with the unused bits of a
compute-instruction set. -/
def Obligations.EveryWordIsAnInstruction : Prop :=
  ∀ w : Word, (decode w).wf = true ∧ encode (decode w) = if w.getLsbD 15 then w ||| 0x6000#16 else w

/-- A term the decoder names by another row (log 4) still encodes to a word that executes exactly as it does. -/
def Obligations.EncodingKeepsTheMeaning : Prop := ∀ (i : Instr) (s : State), exec (decode (encode i)) s = exec i s

/-- 30_encoding R69, whole: the unused bits are ignored on decode and on execution, and the canonical word. -/
def Obligations.UnusedBitsAreIgnored : Prop :=
  (∀ w w' : Word, w.getLsbD 15 = true → w &&& 0x9FFF#16 = w' &&& 0x9FFF#16 →
    decode w = decode w' ∧
      ∀ s : State, mapNext (fun t => { t with rom := [] }) (step (placeAtPc s w)) =
        mapNext (fun t => { t with rom := [] }) (step (placeAtPc s w'))) ∧
  ∀ y c d j, encodeFields (.compute y c d j) =
    0xE000#16 ||| BitVec.ofNat 16 ((if y = .mem then 4096 else 0) + c.toNat * 64 + d.bits.toNat * 8 + j.bits.toNat)

/-! ## The arithmetic/logic unit and the jump condition -/

/-- 40_alu R84: the closed form of every control code. -/
def Obligations.AluClosedForms : Prop :=
  ∀ (x y : Word) (c : Code), (closedForms x y)[c.toNat]? = some (alu x y c).out

/-- 40_alu R81: the two flags of the result. -/
def Obligations.AluFlags : Prop :=
  ∀ (x y : Word) (c : Code),
    ((alu x y c).zr = true ↔ (alu x y c).out.toNat = 0) ∧
    ((alu x y c).ng = true ↔ (alu x y c).out.toInt < 0) ∧
    ((alu x y c).ng = true ↔ (alu x y c).out.getLsbD 15 = true) ∧
    ¬((alu x y c).zr = true ∧ (alu x y c).ng = true) ∧
    ((alu x y c).zr = false ∧ (alu x y c).ng = false ↔
      1 ≤ (alu x y c).out.toNat ∧ (alu x y c).out.toNat ≤ 0x7FFF)

/-- 40_alu R86: operand independence, and the memory read whose guard still applies. -/
def Obligations.ZeroedOperandIsIndependent : Prop :=
  (∀ (x x' y : Word) (c : Code), c.getLsbD 5 = true → alu x y c = alu x' y c) ∧
  (∀ (x y y' : Word) (c : Code), c.getLsbD 3 = true → alu x y c = alu x y' c) ∧
  (∀ (c : Code) (d : Dest) (j : Jump) (s : State), c.getLsbD 3 = true →
    exec (.compute .addr c d j) s = exec (.compute .mem c d j) s) ∧
  ∀ (y : Operand) (c : Code) (d : Dest) (j : Jump) (s : State), config.ramSize ≤ s.a.toNat →
    exec (.compute y c d j) s = .fault (.outOfRange .ram s.a.toNat)

/-- 40_alu R87: the constant 1, the all-zero code, and the two examples. -/
def Obligations.AllOneCodeYieldsOne : Prop :=
  (∀ x y : Word, alu x y 0b111111#6 = ⟨0x0001#16, false, false⟩) ∧
  (∀ x y : Word, (alu x y 0b000000#6).out = x &&& y) ∧
  alu 0x1234#16 0xABCD#16 0b000000#6 = ⟨0x0204#16, false, false⟩

/-- 44_jump R200: the source's table, the bit form and the sign of the result agree on every result. -/
def Obligations.JumpConditionForms : Prop :=
  ∀ (j : Jump) (x y : Word) (c : Code),
    let r := alu x y c
    jumpCond j r.zr r.ng = jumps j r.out ∧
    jumpCond j r.zr r.ng =
      ((j.bits.getLsbD 2 && r.ng) || (j.bits.getLsbD 1 && r.zr) || (j.bits.getLsbD 0 && !r.zr && !r.ng))

/-! ## What each instruction does, where it completes -/

/-- 42_address_instruction R150: the address-instruction, its encoding, its result, its two faults, its silence. -/
def Obligations.AddressInstruction : Prop :=
  ∀ (value : BitVec 15) (s : State),
    decode (value.setWidth 16) = .atValue value ∧
    (s.a.toNat < config.ramSize → s.pc.toNat + 1 < config.romSize →
      exec (.atValue value) s =
        .next { s with a := value.setWidth 16, pc := s.pc + 1#16, ml := ramAtA s }) ∧
    emits (.atValue value) s = [] ∧
    (config.ramSize ≤ s.a.toNat → exec (.atValue value) s = .fault (.outOfRange .ram s.a.toNat)) ∧
    (s.a.toNat < config.ramSize → config.romSize ≤ s.pc.toNat + 1 →
      exec (.atValue value) s = .fault (.outOfRange .rom (s.pc.toNat + 1)))

/-- 43_compute_instruction R160, R161, R190: the general compute-instruction completes with the ALU's result. -/
def Obligations.ComputeInstruction : Prop :=
  ∀ (y : Operand) (c : Code) (d : Dest) (j : Jump) (s : State),
    let out := (alu s.d (secondOperand s y) c).out
    Accepts s (storesTo d) (jumps j out) →
      exec (.compute y c d j) s = .next (afterCompute s d (jumps j out) out)

/-- 43_compute_instruction R162 to R170: constants, copies, complements and negations of `D` and `A`. -/
def Obligations.ConstantsCopiesAndNegations : Prop :=
  CompMeans .comp0 0x8A80#16 (fun _ => 0#16) ∧
  CompMeans .comp1 0x8FC0#16 (fun _ => 1#16) ∧
  CompMeans .compNeg1 0x8E80#16 (fun _ => 0xFFFF#16) ∧
  CompMeans .compD 0x8300#16 (fun s => s.d) ∧
  CompMeans .compA 0x8C00#16 (fun s => s.a) ∧
  CompMeans .compNotD 0x8340#16 (fun s => ~~~s.d) ∧
  CompMeans .compNotA 0x8C40#16 (fun s => ~~~s.a) ∧
  CompMeans .compNegD 0x83C0#16 (fun s => 0#16 - s.d) ∧
  CompMeans .compNegA 0x8CC0#16 (fun s => 0#16 - s.a)

/-- 43_compute_instruction R171 to R179: increments, decrements, sums, differences, and, or, over `D` and `A`. -/
def Obligations.ArithmeticOverRegisters : Prop :=
  CompMeans .compDPlus1 0x87C0#16 (fun s => s.d + 1#16) ∧
  CompMeans .compAPlus1 0x8DC0#16 (fun s => s.a + 1#16) ∧
  CompMeans .compDMinus1 0x8380#16 (fun s => s.d - 1#16) ∧
  CompMeans .compAMinus1 0x8C80#16 (fun s => s.a - 1#16) ∧
  CompMeans .compDPlusA 0x8080#16 (fun s => s.d + s.a) ∧
  CompMeans .compDMinusA 0x84C0#16 (fun s => s.d - s.a) ∧
  CompMeans .compAMinusD 0x81C0#16 (fun s => s.a - s.d) ∧
  CompMeans .compDAndA 0x8000#16 (fun s => s.d &&& s.a) ∧
  CompMeans .compDOrA 0x8540#16 (fun s => s.d ||| s.a)

/-- 43_compute_instruction R180 to R189: the computations over the memory operand. -/
def Obligations.ArithmeticOverMemory : Prop :=
  CompMeans .compM 0x9C00#16 ramAtA ∧
  CompMeans .compNotM 0x9C40#16 (fun s => ~~~ramAtA s) ∧
  CompMeans .compNegM 0x9CC0#16 (fun s => 0#16 - ramAtA s) ∧
  CompMeans .compMPlus1 0x9DC0#16 (fun s => ramAtA s + 1#16) ∧
  CompMeans .compMMinus1 0x9C80#16 (fun s => ramAtA s - 1#16) ∧
  CompMeans .compDPlusM 0x9080#16 (fun s => s.d + ramAtA s) ∧
  CompMeans .compDMinusM 0x94C0#16 (fun s => s.d - ramAtA s) ∧
  CompMeans .compMMinusD 0x91C0#16 (fun s => ramAtA s - s.d) ∧
  CompMeans .compDAndM 0x9000#16 (fun s => s.d &&& ramAtA s) ∧
  CompMeans .compDOrM 0x9540#16 (fun s => s.d ||| ramAtA s)

/-- 43_compute_instruction R190 to R198: the destination rows, each with the destinations its rule names. -/
def Obligations.DestinationRows : Prop :=
  ∀ (y : Operand) (c : Code) (j : Jump) (s : State),
    let out := (alu s.d (secondOperand s y) c).out
    let pc' := pcAfter s (jumps j out)
    let stored := Memory.set s.ram s.a.toNat out
    (Accepts s false (jumps j out) →
      exec (.destNull y c j) s = .next { s with pc := pc', ml := ramAtA s } ∧
      exec (.destD y c j) s = .next { s with pc := pc', ml := ramAtA s, d := out } ∧
      exec (.destA y c j) s = .next { s with pc := pc', ml := ramAtA s, a := out } ∧
      exec (.destAD y c j) s = .next { s with pc := pc', ml := ramAtA s, a := out, d := out }) ∧
    (Accepts s true (jumps j out) →
      exec (.destM y c j) s = .next { s with pc := pc', ml := ramAtA s, ram := stored } ∧
      exec (.destMD y c j) s = .next { s with pc := pc', ml := ramAtA s, ram := stored, d := out } ∧
      exec (.destAM y c j) s = .next { s with pc := pc', ml := ramAtA s, ram := stored, a := out } ∧
      exec (.destAMD y c j) s = .next { s with pc := pc', ml := ramAtA s, ram := stored, a := out, d := out })

/-- 44_jump R201 to R209: the jump rows, each taken exactly when its rule says so, to the old `A`. -/
def Obligations.JumpRows : Prop :=
  ∀ (y : Operand) (c : Code) (d : Dest) (s : State),
    let out := (alu s.d (secondOperand s y) c).out
    (Accepts s (storesTo d) true →
      exec (.jumpJMP y c d) s = .next (afterCompute s d true out) ∧
      (0 < out.toInt → exec (.jumpJGT y c d) s = .next (afterCompute s d true out)) ∧
      (out.toInt = 0 → exec (.jumpJEQ y c d) s = .next (afterCompute s d true out)) ∧
      (0 ≤ out.toInt → exec (.jumpJGE y c d) s = .next (afterCompute s d true out)) ∧
      (out.toInt < 0 → exec (.jumpJLT y c d) s = .next (afterCompute s d true out)) ∧
      (out.toInt ≠ 0 → exec (.jumpJNE y c d) s = .next (afterCompute s d true out)) ∧
      (out.toInt ≤ 0 → exec (.jumpJLE y c d) s = .next (afterCompute s d true out))) ∧
    (Accepts s (storesTo d) false →
      exec (.jumpNull y c d) s = .next (afterCompute s d false out) ∧
      (¬0 < out.toInt → exec (.jumpJGT y c d) s = .next (afterCompute s d false out)) ∧
      (¬out.toInt = 0 → exec (.jumpJEQ y c d) s = .next (afterCompute s d false out)) ∧
      (¬0 ≤ out.toInt → exec (.jumpJGE y c d) s = .next (afterCompute s d false out)) ∧
      (¬out.toInt < 0 → exec (.jumpJLT y c d) s = .next (afterCompute s d false out)) ∧
      (¬out.toInt ≠ 0 → exec (.jumpJNE y c d) s = .next (afterCompute s d false out)) ∧
      (¬out.toInt ≤ 0 → exec (.jumpJLE y c d) s = .next (afterCompute s d false out)))

/-- 44_jump R213: the literal `D=0;JEQ` (`0xEA92`) always jumps and clears `D`; `D;JEQ` (`0xE302`) jumps with `D = 0` and falls
through with `D = 1`, the two halves of the source's example. -/
def Obligations.SourceJumpExample : Prop :=
  decode 0xEA92#16 = .comp0 .D .JEQ ∧ decode 0xE302#16 = .compD .null .JEQ ∧
  (∀ s : State, s.a.toNat < config.ramSize →
    exec (.comp0 .D .JEQ) s = .next { s with d := 0#16, pc := s.a, ml := ramAtA s }) ∧
  (∀ s : State, s.a.toNat < config.ramSize → s.d = 0#16 →
    exec (.compD .null .JEQ) s = .next { s with pc := s.a, ml := ramAtA s }) ∧
  ∀ s : State, s.a.toNat < config.ramSize → s.d = 1#16 → s.pc.toNat + 1 < config.romSize →
    exec (.compD .null .JEQ) s = .next { s with pc := s.pc + 1#16, ml := ramAtA s }

/-! ## Frames -/

/-- Frame of every compute-instruction (the general row, the 28 computation rows, the 8 destination rows, the 8 jump rows):
`A` and `D` change only when the destination names them, every RAM word but `RAM[A0]` reads as before, `RAM[A0]` too when
nothing is stored, ROM is unchanged, and the latch takes `RAM[A0]` as it was (43_compute_instruction R190, 10_state R27). -/
def Obligations.ComputeFrame : Prop :=
  ∀ (i : Instr) (y : Operand) (c : Code) (d : Dest) (j : Jump) (s t : State),
    i.fields = .compute y c d j → exec i s = .next t →
    t.rom = s.rom ∧ t.ml = ramAtA s ∧
    (d = .null ∨ d = .M ∨ d = .A ∨ d = .AM → t.d = s.d) ∧
    (d = .null ∨ d = .M ∨ d = .D ∨ d = .MD → t.a = s.a) ∧
    (∀ k, k ≠ s.a.toNat → Memory.get t.ram k = Memory.get s.ram k) ∧
    (d = .null ∨ d = .D ∨ d = .A ∨ d = .AD → ∀ k, Memory.get t.ram k = Memory.get s.ram k)

/-- Frame of the address-instruction: only `A`, `PC` and the latch change (R150). -/
def Obligations.AddressFrame : Prop :=
  ∀ (value : BitVec 15) (s t : State), exec (.atValue value) s = .next t →
    t.d = s.d ∧ t.ml = ramAtA s ∧ t.rom = s.rom ∧ ∀ k, Memory.get t.ram k = Memory.get s.ram k

/-- 43_compute_instruction R199, whole: the four checks of the ordering contract. -/
def Obligations.OrderingContract : Prop :=
  (∀ s : State, s.d = 7#16 → s.a = 3#16 → s.pc.toNat + 1 < config.romSize →
    ∃ t, exec (.compDPlus1 .AM .null) s = .next t ∧ Memory.get t.ram 3 = 8#16 ∧
      Memory.get t.ram 8 = Memory.get s.ram 8) ∧
  (∀ s : State, s.d = 20#16 → s.a = 10#16 →
    ∃ t, exec (.compD .A .JMP) s = .next t ∧ t.a = 20#16 ∧ t.pc = 10#16) ∧
  (∀ s : State, s.d = 7#16 → ramAtA s = 5#16 → s.a.toNat < config.ramSize → s.a.toNat ≠ config.kbdAddr →
    s.pc.toNat + 1 < config.romSize →
    ∃ t, exec (.compDPlusM .MD .null) s = .next t ∧ Memory.get t.ram s.a.toNat = 12#16 ∧ t.d = 12#16) ∧
  ∀ s : State, s.d = 2#16 → s.a = 3#16 → s.pc.toNat + 1 < config.romSize →
    ∃ t, exec (.compDMinusA .AD .null) s = .next t ∧ t.d = 0xFFFF#16 ∧ t.a = 0xFFFF#16

/-- 41_cycle_step R131: the canonical sequential order (RAM, then `D`, then `A`, each in place) gives the committed state. -/
def Obligations.CanonicalOrderAgrees : Prop :=
  ∀ (y : Operand) (c : Code) (d : Dest) (j : Jump) (s t : State), exec (.compute y c d j) s = .next t →
    let out := (alu s.d (secondOperand s y) c).out
    let s0 := { s with ml := ramAtA s }
    let s1 := if writesM d then { s0 with ram := Memory.set s0.ram s0.a.toNat out } else s0
    let s2 := if writesD d then { s1 with d := out } else s1
    let s3 := if writesA d then { s2 with a := out } else s2
    t = { s3 with pc := pcAfter s (jumps j out) }

/-- 44_jump R210: the target of a taken jump is the old `A`, whatever the same instruction writes to `A`. -/
def Obligations.JumpTargetIsTheOldA : Prop :=
  ∀ (i : Instr) (y : Operand) (c : Code) (d : Dest) (j : Jump) (s t : State),
    i.fields = .compute y c d j → exec i s = .next t →
    jumps j (alu s.d (secondOperand s y) c).out = true →
    t.pc = s.a ∧ (writesA d = true → t.a = (alu s.d (secondOperand s y) c).out)

/-! ## The tick -/

/-- A step runs the decoded instruction: the word at `ROM[PC]`, decoded, with nothing added around it (R130, R281). -/
def Obligations.StepRunsTheDecodedInstruction : Prop :=
  ∀ s : State, s.a.toNat < config.ramSize → s.pc.toNat < config.romSize →
    step s = exec (decode (Memory.get s.rom s.pc.toNat)) s

/-- 41_cycle_step R130: the model's tick, through 46 instructions, is the transition of R130 over the bits of the word, with
its faults and its notifications, in every state. -/
def Obligations.TickIsTheTransitionOfTheSpec : Prop := ∀ s : State, tick s = refTick s

/-- 41_cycle_step R133: the RAM guard rejects any instruction. -/
def Obligations.RamGuardRejectsEveryInstruction : Prop :=
  (∀ s : State, config.ramSize ≤ s.a.toNat →
    step s = .fault (.outOfRange .ram s.a.toNat) ∧ ∀ i, exec i s = .fault (.outOfRange .ram s.a.toNat)) ∧
  ∀ s : State, config.ramSize ≤ s.a.toNat ↔ s.a.getLsbD 15 = true

/-- 41_cycle_step R135: the fetch guard, and that no state that meets the invariant meets it. -/
def Obligations.FetchGuard : Prop :=
  (∀ s : State, s.a.toNat < config.ramSize → config.romSize ≤ s.pc.toNat →
    step s = .fault (.outOfRange .rom s.pc.toNat)) ∧
  ∀ s : State, Reachable s → s.pc.toNat < config.romSize

/-- 41_cycle_step R136: the next-PC guard; the program counter never wraps, no jump leaves ROM, and the guard fires only
for falling off the end of ROM. -/
def Obligations.NextPcGuard : Prop :=
  (∀ s : State, s.a.toNat < config.ramSize → s.pc.toNat < config.romSize →
    ¬(refStores s = true ∧ s.a.toNat = config.kbdAddr) → config.romSize ≤ refNext s →
    step s = .fault (.outOfRange .rom (refNext s))) ∧
  (∀ s t : State, step s = .next t → t.pc.toNat = refNext s ∧ refNext s < config.romSize) ∧
  ∀ (s : State) (n : Nat), s.pc.toNat < config.romSize → step s = .fault (.outOfRange .rom n) →
    refTaken s = false ∧ n = s.pc.toNat + 1

/-- 20_memory R49: a program store to the keyboard register is rejected, and no tick changes that word. -/
def Obligations.KeyboardStoreIsRejected : Prop :=
  (∀ (i : Instr) (y : Operand) (c : Code) (d : Dest) (j : Jump) (s : State),
    i.fields = .compute y c d j → storesTo d = true → s.a.toNat = config.kbdAddr →
    exec i s = .fault (.keyboardStore s.a.toNat)) ∧
  ∀ s t : State, step s = .next t → Memory.get t.ram config.kbdAddr = Memory.get s.ram config.kbdAddr

/-- 41_cycle_step R137: the order of the guards. -/
def Obligations.GuardOrder : Prop :=
  ∀ s : State,
    (config.ramSize ≤ s.a.toNat → step s = .fault (.outOfRange .ram s.a.toNat)) ∧
    (s.a.toNat < config.ramSize → config.romSize ≤ s.pc.toNat → step s = .fault (.outOfRange .rom s.pc.toNat)) ∧
    (s.a.toNat < config.ramSize → s.pc.toNat < config.romSize → refStores s = true →
      s.a.toNat = config.kbdAddr → step s = .fault (.keyboardStore s.a.toNat)) ∧
    (s.a.toNat < config.ramSize → s.pc.toNat < config.romSize →
      ¬(refStores s = true ∧ s.a.toNat = config.kbdAddr) → config.romSize ≤ refNext s →
      step s = .fault (.outOfRange .rom (refNext s)))

/-- 41_cycle_step R141 with R138, 30_encoding R68: a tick is possible exactly where no guard fires, and none is refused. -/
def Obligations.TickPossibleIffNoGuardFires : Prop :=
  (∀ s : State, Proceeds s ↔
    s.a.toNat < config.ramSize ∧ s.pc.toNat < config.romSize ∧
      ¬(refStores s = true ∧ s.a.toNat = config.kbdAddr) ∧ refNext s < config.romSize) ∧
  ∀ (s : State) (r : Refusal), step s ≠ .refused r

/-- 41_cycle_step R134: an instruction that leaves an address outside RAM in `A` completes, and the next tick faults. -/
def Obligations.AddressOutsideRamFaultsTheNextTick : Prop :=
  (∀ s t : State, step s = .next t → config.ramSize ≤ t.a.toNat →
    step t = .fault (.outOfRange .ram t.a.toNat)) ∧
  ∀ s : State, s.a.toNat < config.ramSize → s.pc.toNat + 1 < config.romSize →
    ∃ t, exec (.compNeg1 .A .null) s = .next t ∧ t.a = 0xFFFF#16

/-- 10_state R28 (a), (b), (d): the latch after an accepted tick is the word `RAM[A0]` had before it, and a host write does not
touch the latch. -/
def Obligations.LatchHoldsTheOldWord : Prop :=
  (∀ s t : State, step s = .next t → t.ml = Memory.get s.ram s.a.toNat) ∧
  (∀ s t : State, s.a = 0#16 → exec (.atValue 5#15) s = .next t →
    t.ml = Memory.get s.ram 0 ∧ ∀ u, step t = .next u → u.ml = Memory.get t.ram 5) ∧
  ∀ (s : State) (addr v : Word) (r : Reply), call (.writeMemory addr v) s = .next r → r.state.ml = s.ml

/-- 10_state R28 (c): the stored latch never influences a later result. -/
def Obligations.LatchNeverInfluences : Prop :=
  ∀ (s : State) (x : Word), step { s with ml := x } = step s ∧ tickNotes { s with ml := x } = tickNotes s

/-- 20_memory R50: of RAM, a tick reads `RAM[A0]` alone: two memories that agree there give the same registers, the same
notifications and the same faults. -/
def Obligations.OneRamWordIsRead : Prop :=
  ∀ (s : State) (m : Memory), Memory.get m s.a.toNat = Memory.get s.ram s.a.toNat →
    mapNext (fun t => { t with ram := [] }) (step { s with ram := m }) =
      mapNext (fun t => { t with ram := [] }) (step s) ∧
    tickNotes { s with ram := m } = tickNotes s

/-- 20_memory R40, R55: no instruction reads or writes ROM as data. -/
def Obligations.RomIsOnlyFetched : Prop :=
  ∀ (i : Instr) (s : State) (r : Memory),
    exec i { s with rom := r } = mapNext (fun t => { t with rom := r }) (exec i s)

/-- 20_memory R58, R50, R55: a tick writes at most the one RAM word at `A0`, an address-instruction none, and never ROM. -/
def Obligations.OneRamWordIsWritten : Prop :=
  ∀ s t : State, step s = .next t →
    t.rom = s.rom ∧
    (∀ k, k ≠ s.a.toNat → Memory.get t.ram k = Memory.get s.ram k) ∧
    (refStores s = false → t.ram = s.ram) ∧
    (refStores s = true → Memory.get t.ram s.a.toNat = refOut s)

/-- 41_cycle_step R140: a tick notifies exactly when it stores into the screen range, once, with `(A0, out)`. -/
def Obligations.TickNotifications : Prop :=
  ∀ (s t : State) (notes : List Note), tick s = .next (t, notes) →
    (refStores s = true ∧ config.screenBase ≤ s.a.toNat ∧ s.a.toNat < config.screenBase + config.screenLen →
      notes = [⟨s.a, refOut s⟩]) ∧
    (¬(refStores s = true ∧ config.screenBase ≤ s.a.toNat ∧ s.a.toNat < config.screenBase + config.screenLen) →
      notes = [])

/-- 44_jump R212: `0;JMP` (`0xEA87`) at the address `A` holds is legal and is executed on every tick. -/
def Obligations.SelfJumpRepeats : Prop :=
  ∀ s : State, s.a.toNat < config.ramSize → s.pc = s.a → Memory.get s.rom s.pc.toNat = 0xEA87#16 →
    step s = .next { s with ml := ramAtA s } ∧
    step { s with ml := ramAtA s } = .next { s with ml := ramAtA s }

/-! ## The invariant -/

/-- The state after construct meets the invariant. -/
def Obligations.ResetMeetsTheInvariant : Prop := StateInv State.reset

/-- 10_state R24, 20_memory R51: every accepted tick from a state that meets the invariant leads to one: the program counter
stays inside ROM, both memories stay canonical and hold words at existing addresses only. -/
def Obligations.StepKeepsTheInvariant : Prop := ∀ s t : State, StateInv s → step s = .next t → StateInv t

/-- Every host call keeps the invariant, a rejected one too. -/
def Obligations.HostCallKeepsTheInvariant : Prop := ∀ (c : HostCall) (s : State), StateInv s → StateInv (afterCall c s)

/-- 10_state R24: the invariant holds after any list of host calls and ticks from construct (the canonical form of the memories is
the model's, log 14). -/
def Obligations.ReachableStatesMeetTheInvariant : Prop := ∀ s : State, Reachable s → StateInv s

/-- In states that meet the invariant, memories with the same words are the same data (the model's canonical form, log 14). -/
def Obligations.EqualWordsAreEqualMemories : Prop :=
  ∀ m m' : Memory, Memory.wf m = true → Memory.wf m' = true → (∀ k, Memory.get m k = Memory.get m' k) → m = m'

/-! ## Reset -/

/-- 10_state R31, R32: what construct and reset leave; ROM is zero after construct and reset keeps it. -/
def Obligations.ConstructAndResetZero : Prop :=
  (State.reset.pc = 0#16 ∧ State.reset.a = 0#16 ∧ State.reset.d = 0#16 ∧ State.reset.ml = 0#16 ∧
    (∀ k, Memory.get State.reset.ram k = 0#16) ∧ ∀ k, Memory.get State.reset.rom k = 0#16) ∧
  ∀ s : State, call .construct s = .next ⟨State.reset, none, []⟩ ∧
    ∃ r, call .reset s = .next r ∧ r.state.pc = 0#16 ∧ r.state.a = 0#16 ∧ r.state.d = 0#16 ∧
      r.state.ml = 0#16 ∧ (∀ k, Memory.get r.state.ram k = 0#16) ∧ r.state.rom = s.rom

/-- 10_state R33: reset twice is reset once, and it notifies nothing. -/
def Obligations.ResetIsIdempotent : Prop :=
  ∀ s : State, session [.reset, .reset] s = session [.reset] s ∧ callNotes .reset s = []

/-- 70_reset_and_hazards R283: on an all-zero ROM the machine runs `ROM_SIZE - 1` ticks of `@0`, storing and notifying nothing,
and the next tick is rejected at the end of ROM. -/
def Obligations.ZeroRomRunsToTheEnd : Prop :=
  (∀ n : Nat, n < config.romSize →
    Host.Core.run Sys2Proof.core n State.reset = .next { State.reset with pc := BitVec.ofNat 16 n } ∧
    session (List.replicate n .tick) State.reset = ({ State.reset with pc := BitVec.ofNat 16 n }, [])) ∧
  step { State.reset with pc := BitVec.ofNat 16 (config.romSize - 1) } = .fault (.outOfRange .rom config.romSize)

/-! ## Rejection -/

/-- 60_exceptions R252: a rejected call changes no state and notifies nothing, whichever call it is. -/
def Obligations.RejectionChangesNothing : Prop :=
  ∀ (c : HostCall) (s : State) (f : Fault) (rest : List HostCall), call c s = .fault f →
    session (c :: rest) s = session rest s

/-- 60_exceptions R253: a faulted state faults again on every tick; an address register outside RAM survives everything but
construct and reset, which end it. -/
def Obligations.FaultIsPermanent : Prop :=
  (∀ (s : State) (f : Fault) (n : Nat), step s = .fault f →
    session (List.replicate n .tick) s = (s, []) ∧ call .tick (session (List.replicate n .tick) s).1 = .fault f) ∧
  (∀ (calls : List HostCall) (s : State), config.ramSize ≤ s.a.toNat → (∀ c ∈ calls, keepsMachine c = true) →
    (session calls s).1.a = s.a ∧ step (session calls s).1 = .fault (.outOfRange .ram s.a.toNat)) ∧
  ∀ s : State, (afterCall .reset s).a.toNat < config.ramSize

/-! ## The host interface -/

/-- 45_host_interface R222: a load is all or nothing: accepted exactly when every line is well formed and the text fits; then
ROM holds the lines' words, bit `15 - i` of a word being character `i`, and zeros after them, and nothing else changes;
otherwise it reports an error that holds and the state is as it was. -/
def Obligations.LoadProgramAllOrNothing : Prop :=
  ∀ (lines : List Line) (s : State),
    (lines.length ≤ config.romSize ∧ (∀ l ∈ lines, LineOk l) →
      ∃ t, call (.loadProgram lines) s = .next ⟨t, none, []⟩ ∧ t = { s with rom := t.rom } ∧
        (∀ (k : Nat) (l : Line), lines[k]? = some l →
          ∀ i, i < 16 → (Memory.get t.rom k).getLsbD (15 - i) = decide (l[i]? = some '1')) ∧
        ∀ k, lines.length ≤ k → Memory.get t.rom k = 0#16) ∧
    (¬(lines.length ≤ config.romSize ∧ (∀ l ∈ lines, LineOk l)) →
      afterCall (.loadProgram lines) s = s ∧
      ∃ e, call (.loadProgram lines) s = .fault (.formatError e) ∧
        match e with
        | .capacity => config.romSize < lines.length
        | .line i => ∃ l, lines[i]? = some l ∧ ¬LineOk l)

/-- 20_memory R55, 45_host_interface R223d: the tick after a load fetches from the new ROM. -/
def Obligations.LoadTakesEffectAtTheNextTick : Prop :=
  ∀ (lines : List Line) (s t : State), loadProgram lines s = .ok t →
    s.a.toNat < config.ramSize → s.pc.toNat < config.romSize →
    step t = exec (decode (((lines.map lineWord)[s.pc.toNat]?).getD 0#16)) t

/-- 45_host_interface R226: `read_memory`. -/
def Obligations.HostReadsMemory : Prop :=
  ∀ (addr : Word) (s : State),
    (addr.toNat < config.ramSize →
      call (.readMemory addr) s = .next ⟨s, some (Memory.get s.ram addr.toNat), []⟩) ∧
    (config.ramSize ≤ addr.toNat → call (.readMemory addr) s = .fault (.outOfRange .ram addr.toNat))

/-- 45_host_interface R227: `write_memory`, the keyboard register included; only RAM changes. -/
def Obligations.HostWritesMemory : Prop :=
  ∀ (addr v : Word) (s : State),
    (addr.toNat < config.ramSize →
      ∃ t, call (.writeMemory addr v) s =
          .next ⟨t, none, if config.screenBase ≤ addr.toNat ∧ addr.toNat < config.screenBase + config.screenLen
            then [⟨addr, v⟩] else []⟩ ∧
        t = { s with ram := t.ram } ∧ Memory.get t.ram addr.toNat = v ∧
        ∀ k, k ≠ addr.toNat → Memory.get t.ram k = Memory.get s.ram k) ∧
    (config.ramSize ≤ addr.toNat → call (.writeMemory addr v) s = .fault (.outOfRange .ram addr.toNat))

/-- 45_host_interface R229: the key wrappers, and that a program then reads the key. -/
def Obligations.KeyInjection : Prop :=
  ∀ (code : Word) (s : State),
    call (.injectKey code) s = call (.writeMemory (BitVec.ofNat 16 config.kbdAddr) code) s ∧
    call .clearKey s = call (.injectKey 0#16) s ∧
    (∃ r, call (.injectKey code) s = .next r ∧ Memory.get r.state.ram config.kbdAddr = code ∧ r.notes = []) ∧
    (s.a.toNat = config.kbdAddr → s.pc.toNat + 1 < config.romSize →
      ∃ t, exec (.compM .D .null) (afterCall (.injectKey code) s) = .next t ∧ t.d = code)

/-- 20_memory R48, R49: between two host writes of the keyboard register its word does not change, whatever programs run. -/
def Obligations.OnlyTheHostWritesTheKeyboard : Prop :=
  ∀ (calls : List HostCall) (s : State), (∀ c ∈ calls, keepsKeyboard c = true) →
    Memory.get (session calls s).1.ram config.kbdAddr = Memory.get s.ram config.kbdAddr

/-- 20_memory R47: every write of the screen range is notified, in order and with its address and value: a display that
copies the notifications shows the screen range at all times between resets. -/
def Obligations.NotificationsMirrorTheScreen : Prop :=
  ∀ (calls : List HostCall) (s : State) (k : Nat), (∀ c ∈ calls, keepsMachine c = true) →
    config.screenBase ≤ k → k < config.screenBase + config.screenLen →
    mirrored (session calls s).2 k (Memory.get s.ram k) = Memory.get (session calls s).1.ram k

/-- 20_memory R47, as an invariant of one step: a display that shows the screen range and copies the notifications of a tick, or
of a host call that does not zero the machine, shows the screen range after it. -/
def Obligations.EachStepKeepsTheDisplayTrue : Prop :=
  (∀ (display : Nat → Word) (s t : State), Shows display s → step s = .next t →
    Shows (fun k => mirrored (tickNotes s) k (display k)) t) ∧
  ∀ (display : Nat → Word) (c : HostCall) (s : State), keepsMachine c = true → Shows display s →
    Shows (fun k => mirrored (callNotes c s) k (display k)) (afterCall c s)

/-- 44_jump R212: every taken jump to its own address, whatever the computation, destination and jump, completes at that address
with the same program; one that writes nothing, and `JMP` with any destination but `A`, is executed there on every tick. -/
def Obligations.TakenSelfJumpsStayInPlace : Prop :=
  ∀ (s : State) (y : Operand) (c : Code) (d : Dest) (j : Jump),
    let out := (alu s.d (secondOperand s y) c).out
    s.a.toNat < config.ramSize → s.pc = s.a → (storesTo d = true → s.a.toNat ≠ config.kbdAddr) →
    (decode (Memory.get s.rom s.pc.toNat)).fields = .compute y c d j → jumps j out = true →
    (∃ t, step s = .next t ∧ t.pc = s.pc ∧ t.rom = s.rom) ∧
    (d = .null ∨ (j = .JMP ∧ (d = .M ∨ d = .D ∨ d = .MD)) →
      ∀ n, ∃ t, Host.Core.run Sys2Proof.core n s = .next t ∧ t.pc = s.pc ∧ t.a = s.a ∧ t.rom = s.rom)
end

