-- ==== Sys2Proof/Laws/Decode.lean ====
section
/-! SUPPORT. The decoder and the encoder on fields. -/

namespace Sys2Proof

@[simp] theorem Operand.ofBit_aBit (y : Operand) : Operand.ofBit y.aBit = y := by cases y <;> rfl

@[simp] theorem Operand.aBit_ofBit (b : Bool) : (Operand.ofBit b).aBit = b := by cases b <;> rfl

@[simp] theorem Dest.ofBits_bits (d : Dest) :
    Dest.ofBits (d.bits.getLsbD 2) (d.bits.getLsbD 1) (d.bits.getLsbD 0) = d := by cases d <;> rfl

@[simp] theorem Jump.ofBits_bits (j : Jump) :
    Jump.ofBits (j.bits.getLsbD 2) (j.bits.getLsbD 1) (j.bits.getLsbD 0) = j := by cases j <;> rfl

theorem Dest.bits_ofBits (a d m : Bool) :
    (Dest.ofBits a d m).bits = BitVec.ofBool a ++ BitVec.ofBool d ++ BitVec.ofBool m := by
  cases a <;> cases d <;> cases m <;> rfl

theorem Jump.bits_ofBits (n z p : Bool) :
    (Jump.ofBits n z p).bits = BitVec.ofBool n ++ BitVec.ofBool z ++ BitVec.ofBool p := by
  cases n <;> cases z <;> cases p <;> rfl

/-- Where each field of a compute-instruction stands in its word (30_encoding R62 to R67, R69). -/
theorem encode_bits (y : Operand) (c : Code) (d : Dest) (j : Jump) :
    let w := encodeFields (.compute y c d j)
    w.getLsbD 15 = true ∧ w.getLsbD 14 = true ∧ w.getLsbD 13 = true ∧ w.getLsbD 12 = y.aBit ∧ w.extractLsb' 6 6 = c ∧
    w.getLsbD 5 = d.bits.getLsbD 2 ∧ w.getLsbD 4 = d.bits.getLsbD 1 ∧ w.getLsbD 3 = d.bits.getLsbD 0 ∧
    w.getLsbD 2 = j.bits.getLsbD 2 ∧ w.getLsbD 1 = j.bits.getLsbD 1 ∧ w.getLsbD 0 = j.bits.getLsbD 0 := by
  refine ⟨?_, ?_, ?_, ?_, ?_, ?_, ?_, ?_, ?_, ?_, ?_⟩
  case refine_5 =>
    ext i hi
    have : i = 0 ∨ i = 1 ∨ i = 2 ∨ i = 3 ∨ i = 4 ∨ i = 5 := by omega
    rcases this with rfl | rfl | rfl | rfl | rfl | rfl <;> simp [encodeFields]
  all_goals simp [encodeFields]

/-- Encoding drops no field: the decoder reads back every field of every kind. -/
theorem decodeFields_encodeFields (f : Fields) : decodeFields (encodeFields f) = f := by
  cases f with
  | address v =>
    unfold decodeFields encodeFields
    rw [if_neg (by simp)]
    congr 1
    ext i hi
    simp [hi]
    intro
    omega
  | compute y c d j =>
    obtain ⟨h15, -, -, h12, hc, h5, h4, h3, h2, h1, h0⟩ := encode_bits y c d j
    unfold decodeFields
    rw [if_pos h15, h12, hc, h5, h4, h3, h2, h1, h0, Operand.ofBit_aBit, Dest.ofBits_bits, Jump.ofBits_bits]

/-- A row of the computation table encodes its own code. -/
theorem compRows_fields : ∀ r ∈ compRows, ∀ d j, (r.instr d j).fields = .compute r.y r.c d j := by
  intro r hr d j
  simp only [compRows, compRowsA, compRowsM, List.cons_append, List.nil_append, List.mem_cons,
    List.not_mem_nil, or_false] at hr
  rcases hr with h | h | h | h | h | h | h | h | h | h | h | h | h | h | h | h | h | h | h | h | h | h | h | h | h | h
    | h | h <;> subst h <;> rfl

/-- The row found for a pair is a row of the table with that pair. -/
theorem compRow_some {y : Operand} {c : Code} {r : CompRow} (h : compRow y c = some r) :
    r ∈ compRows ∧ r.y = y ∧ r.c = c := by
  refine ⟨List.mem_of_find?_eq_some h, ?_⟩
  simpa using List.find?_some h

theorem shapeInstr_fields (y : Operand) (c : Code) (d : Dest) (j : Jump) :
    (shapeInstr y c d j).fields = .compute y c d j := by
  cases d <;> cases j <;> cases y <;> rfl

/-- Naming a word by a row keeps its fields. -/
@[simp] theorem Fields.instr_fields (f : Fields) : f.instr.fields = f := by
  cases f with
  | address v => rfl
  | compute y c d j =>
    unfold Fields.instr
    dsimp only
    split
    · next r h =>
      obtain ⟨hm, rfl, rfl⟩ := compRow_some h
      exact compRows_fields r hm d j
    · exact shapeInstr_fields y c d j

@[simp] theorem decode_fields (w : Word) : (decode w).fields = decodeFields w := Fields.instr_fields _

theorem undocumented_iff {y : Operand} {c : Code} : undocumented y c = true ↔ compRow y c = none := by
  simp [undocumented]

/-- The pairs of the table are documented, with these rows. -/
theorem compRow_of_mem : ∀ r ∈ compRows, (compRow r.y r.c).map (fun r => r.text) = some r.text := by decide

end Sys2Proof
end

