-- ==== Sys2Proof/Laws/Memory.lean ====
section
/-! SUPPORT. The laws of the memory representation: read after write, and the canonical form. -/

namespace Sys2Proof.Machine

theorem Memory.get_erase (m : Memory) (k j : Nat) :
    Memory.get (Memory.erase m k) j = if j = k then 0#16 else Memory.get m j := by
  induction m with
  | nil => simp [Memory.erase, Memory.get]
  | cons c rest ih =>
    unfold Memory.erase at ih ⊢
    by_cases hc : c.1 = k <;> by_cases hj : j = k <;> by_cases hcj : c.1 = j <;>
      simp_all [Memory.get]

theorem Memory.get_insert (m : Memory) (k j : Nat) (v : Word) (h : Memory.get m k = 0#16)
    (hk : ∀ c ∈ m, c.1 ≠ k) :
    Memory.get (Memory.insert m k v) j = if j = k then v else Memory.get m j := by
  induction m with
  | nil => simp [Memory.insert, Memory.get, eq_comm]
  | cons c rest ih =>
    have hc : c.1 ≠ k := hk c (by simp)
    have hrest : ∀ c ∈ rest, c.1 ≠ k := fun x hx => hk x (by simp [hx])
    have h0 : Memory.get rest k = 0#16 := by simpa [Memory.get, hc] using h
    unfold Memory.insert
    split
    · by_cases hj : j = k
      · simp [Memory.get, hj]
      · simp [Memory.get, hj, Ne.symm hj]
    · by_cases hj : c.1 = j
      · have : j ≠ k := fun e => hc (hj.trans e)
        simp [Memory.get, hj, this]
      · simp [Memory.get, hj, ih h0 hrest]

theorem Memory.erase_ne (m : Memory) (k : Nat) : ∀ c ∈ Memory.erase m k, c.1 ≠ k := by
  intro c hc
  simpa using (List.mem_filter.mp hc).2

/-- Reading after writing: the word written at its address, every other word as before. -/
theorem Memory.get_set (m : Memory) (k j : Nat) (v : Word) :
    Memory.get (Memory.set m k v) j = if j = k then v else Memory.get m j := by
  unfold Memory.set
  split
  · next hv => simp [Memory.get_erase, hv]
  · rw [Memory.get_insert _ _ _ _ (by simp [Memory.get_erase]) (Memory.erase_ne m k), Memory.get_erase]
    split <;> rfl

@[simp] theorem Memory.get_set_same (m : Memory) (k : Nat) (v : Word) :
    Memory.get (Memory.set m k v) k = v := by simp [Memory.get_set]

theorem Memory.get_set_other (m : Memory) {k j : Nat} (v : Word) (h : j ≠ k) :
    Memory.get (Memory.set m k v) j = Memory.get m j := by simp [Memory.get_set, h]

@[simp] theorem Memory.get_nil (k : Nat) : Memory.get [] k = 0#16 := rfl

/-! ### The canonical form -/

theorem Memory.wf_iff (m : Memory) :
    Memory.wf m = true ↔ m.Pairwise (fun x y => x.1 < y.1) ∧ ∀ c ∈ m, c.2 ≠ 0#16 := by
  simp [Memory.wf]

theorem Memory.within_iff (m : Memory) (n : Nat) : Memory.within m n = true ↔ ∀ c ∈ m, c.1 < n := by
  simp [Memory.within]

theorem Memory.wf_erase {m : Memory} (k : Nat) (h : Memory.wf m = true) : Memory.wf (Memory.erase m k) = true := by
  rw [Memory.wf_iff] at h ⊢
  exact ⟨h.1.filter _, fun c hc => h.2 c (List.mem_filter.mp hc).1⟩

theorem Memory.mem_insert {m : Memory} {k : Nat} {v : Word} {c : Cell} (h : c ∈ Memory.insert m k v) :
    c = (k, v) ∨ c ∈ m := by
  induction m with
  | nil => simpa [Memory.insert] using h
  | cons b rest ih =>
    unfold Memory.insert at h
    split at h
    · simpa using h
    · rcases List.mem_cons.mp h with rfl | h
      · simp
      · rcases ih h with h | h <;> simp [h]

theorem Memory.pairwise_insert {m : Memory} {k : Nat} {v : Word} (h : m.Pairwise (fun x y => x.1 < y.1))
    (hk : ∀ c ∈ m, c.1 ≠ k) : (Memory.insert m k v).Pairwise (fun x y => x.1 < y.1) := by
  induction m with
  | nil => simp [Memory.insert]
  | cons b rest ih =>
    obtain ⟨hb, hrest⟩ := List.pairwise_cons.mp h
    have hbk : b.1 ≠ k := hk b (by simp)
    unfold Memory.insert
    split
    · next hlt =>
      refine List.pairwise_cons.mpr ⟨fun c hc => ?_, h⟩
      rcases List.mem_cons.mp hc with rfl | hc
      · exact hlt
      · exact Nat.lt_trans hlt (hb c hc)
    · next hlt =>
      refine List.pairwise_cons.mpr ⟨fun c hc => ?_, ih hrest fun c hc => hk c (by simp [hc])⟩
      rcases Memory.mem_insert hc with rfl | hc
      · show b.1 < k
        omega
      · exact hb c hc

/-- Every write keeps the canonical form. -/
theorem Memory.wf_set {m : Memory} (k : Nat) (v : Word) (h : Memory.wf m = true) :
    Memory.wf (Memory.set m k v) = true := by
  have he := Memory.wf_erase k h
  unfold Memory.set
  split
  · exact he
  · next hv =>
    rw [Memory.wf_iff] at he ⊢
    refine ⟨Memory.pairwise_insert he.1 (Memory.erase_ne m k), fun c hc => ?_⟩
    rcases Memory.mem_insert hc with rfl | hc
    · exact hv
    · exact he.2 c hc

/-- A write at an address below `n` keeps every listed address below `n`. -/
theorem Memory.within_set {m : Memory} {k n : Nat} (v : Word) (hk : k < n) (h : Memory.within m n = true) :
    Memory.within (Memory.set m k v) n = true := by
  rw [Memory.within_iff] at h ⊢
  have he : ∀ c ∈ Memory.erase m k, c.1 < n := fun c hc => h c (List.mem_filter.mp hc).1
  intro c hc
  unfold Memory.set at hc
  split at hc
  · exact he c hc
  · rcases Memory.mem_insert hc with rfl | hc
    · exact hk
    · exact he c hc

/-! ### A memory built from a list of words -/

theorem Memory.memoryOf_le (ws : List Word) : ∀ (k : Nat), ∀ c ∈ memoryOf k ws, k ≤ c.1 := by
  induction ws with
  | nil => intro k c hc; simp [memoryOf] at hc
  | cons w rest ih =>
    intro k c hc
    unfold memoryOf at hc
    split at hc
    · exact Nat.le_of_succ_le (ih (k + 1) c hc)
    · rcases List.mem_cons.mp hc with rfl | hc
      · exact Nat.le_refl k
      · exact Nat.le_of_succ_le (ih (k + 1) c hc)

theorem Memory.memoryOf_lt (ws : List Word) : ∀ (k : Nat), ∀ c ∈ memoryOf k ws, c.1 < k + ws.length := by
  induction ws with
  | nil => intro k c hc; simp [memoryOf] at hc
  | cons w rest ih =>
    intro k c hc
    have := ih (k + 1) c
    unfold memoryOf at hc
    split at hc
    · have := this hc; simp; omega
    · rcases List.mem_cons.mp hc with rfl | hc
      · simp
      · have := this hc; simp; omega

theorem Memory.wf_memoryOf (ws : List Word) : ∀ (k : Nat), Memory.wf (memoryOf k ws) = true := by
  induction ws with
  | nil => intro k; rfl
  | cons w rest ih =>
    intro k
    have hrest := (Memory.wf_iff _).mp (ih (k + 1))
    unfold memoryOf
    split
    · exact ih (k + 1)
    · next hw =>
      refine (Memory.wf_iff _).mpr ⟨List.pairwise_cons.mpr ⟨fun c hc => ?_, hrest.1⟩, fun c hc => ?_⟩
      · exact Memory.memoryOf_le rest (k + 1) c hc
      · rcases List.mem_cons.mp hc with rfl | hc
        · exact hw
        · exact hrest.2 c hc

theorem Memory.get_memoryOf_lt (ws : List Word) : ∀ (k j : Nat), j < k → Memory.get (memoryOf k ws) j = 0#16 := by
  induction ws with
  | nil => intro k j _; rfl
  | cons w rest ih =>
    intro k j h
    unfold memoryOf
    split
    · exact ih (k + 1) j (by omega)
    · have : k ≠ j := by omega
      simp [Memory.get, this, ih (k + 1) j (by omega)]

/-- The words stand from address `k` on, and every other address reads as 0. -/
theorem Memory.get_memoryOf (ws : List Word) : ∀ (k j : Nat), k ≤ j →
    Memory.get (memoryOf k ws) j = (ws[j - k]?).getD 0#16 := by
  induction ws with
  | nil => intro k j _; simp [memoryOf]
  | cons w rest ih =>
    intro k j h
    rcases Nat.eq_or_lt_of_le h with rfl | h
    · unfold memoryOf
      split
      · next hw => simp [Memory.get_memoryOf_lt rest (k + 1) k (by omega), hw]
      · simp [Memory.get]
    · have e : j - k = (j - (k + 1)) + 1 := by omega
      have hne : k ≠ j := by omega
      unfold memoryOf
      split <;> simp [Memory.get, hne, ih (k + 1) j h, e]

end Sys2Proof.Machine
end

