-- ==== Sys2Proof/Laws/State.lean ====
section
/-! SUPPORT. What each update of the state does to each field. -/

namespace Sys2Proof.Machine

/-! ### The widths of 00_scope R7 -/

theorem word_width : Word = BitVec config.xlen := rfl

theorem pc_width (s : State) : s.pc.toNat < 2 ^ config.pcWidth := s.pc.isLt

/-! ### The commit of a tick -/

@[simp] theorem commit_pc (s : State) (m : Word) (w : Writes) : (commit s m w).pc = BitVec.ofNat 16 w.next := rfl
@[simp] theorem commit_a (s : State) (m : Word) (w : Writes) : (commit s m w).a = w.a.getD s.a := rfl
@[simp] theorem commit_d (s : State) (m : Word) (w : Writes) : (commit s m w).d = w.d.getD s.d := rfl
@[simp] theorem commit_ml (s : State) (m : Word) (w : Writes) : (commit s m w).ml = m := rfl
@[simp] theorem commit_rom (s : State) (m : Word) (w : Writes) : (commit s m w).rom = s.rom := rfl

theorem commit_ram_some (s : State) (m : Word) (w : Writes) {v : Word} (h : w.mem = some v) :
    (commit s m w).ram = Memory.set s.ram s.a.toNat v := by simp [commit, h]

theorem commit_ram_none (s : State) (m : Word) (w : Writes) (h : w.mem = none) : (commit s m w).ram = s.ram := by
  simp [commit, h]

/-! ### Placing a word where the next tick fetches -/

@[simp] theorem placeAtPc_pc (s : State) (w : Word) : (placeAtPc s w).pc = s.pc := rfl
@[simp] theorem placeAtPc_a (s : State) (w : Word) : (placeAtPc s w).a = s.a := rfl
@[simp] theorem placeAtPc_d (s : State) (w : Word) : (placeAtPc s w).d = s.d := rfl
@[simp] theorem placeAtPc_ml (s : State) (w : Word) : (placeAtPc s w).ml = s.ml := rfl
@[simp] theorem placeAtPc_ram (s : State) (w : Word) : (placeAtPc s w).ram = s.ram := rfl
@[simp] theorem placeAtPc_rom (s : State) (w : Word) :
    (placeAtPc s w).rom = Memory.set s.rom s.pc.toNat w := rfl

/-! ### Reset -/

@[simp] theorem reset_pc : State.reset.pc = 0#16 := rfl
@[simp] theorem reset_a : State.reset.a = 0#16 := rfl
@[simp] theorem reset_d : State.reset.d = 0#16 := rfl
@[simp] theorem reset_ml : State.reset.ml = 0#16 := rfl
@[simp] theorem reset_ram : State.reset.ram = [] := rfl
@[simp] theorem reset_rom : State.reset.rom = [] := rfl

@[simp] theorem resetMachine_pc (s : State) : (resetMachine s).pc = 0#16 := rfl
@[simp] theorem resetMachine_a (s : State) : (resetMachine s).a = 0#16 := rfl
@[simp] theorem resetMachine_d (s : State) : (resetMachine s).d = 0#16 := rfl
@[simp] theorem resetMachine_ml (s : State) : (resetMachine s).ml = 0#16 := rfl
@[simp] theorem resetMachine_ram (s : State) : (resetMachine s).ram = [] := rfl
@[simp] theorem resetMachine_rom (s : State) : (resetMachine s).rom = s.rom := rfl

end Sys2Proof.Machine
end

