-- ==== Sys2Proof/Laws/Ops.lean ====
section
/-! SUPPORT. What each shared operation can do, said once. -/

namespace Sys2Proof.Machine

/-! ### The access primitives -/

theorem memRead_ok_iff {s : State} {addr v : Word} :
    memRead s addr = .ok v ↔ addr.toNat < config.ramSize ∧ v = Memory.get s.ram addr.toNat := by
  unfold memRead
  split <;> simp_all [eq_comm]

theorem memRead_error_iff {s : State} {addr : Word} {f : Fault} :
    memRead s addr = .error f ↔ config.ramSize ≤ addr.toNat ∧ f = .outOfRange .ram addr.toNat := by
  unfold memRead
  split <;> simp_all [eq_comm]

theorem romRead_ok_iff {s : State} {addr v : Word} :
    romRead s addr = .ok v ↔ addr.toNat < config.romSize ∧ v = Memory.get s.rom addr.toNat := by
  unfold romRead
  split <;> simp_all [eq_comm]

theorem romRead_error_iff {s : State} {addr : Word} {f : Fault} :
    romRead s addr = .error f ↔ config.romSize ≤ addr.toNat ∧ f = .outOfRange .rom addr.toNat := by
  unfold romRead
  split <;> simp_all [eq_comm]

theorem memWrite_ok_iff {s : State} {addr v : Word} {p : State × List Note} :
    memWrite s addr v = .ok p ↔
      addr.toNat < config.ramSize ∧ p = ({ s with ram := Memory.set s.ram addr.toNat v }, notify addr v) := by
  unfold memWrite
  split <;> simp_all [eq_comm]

theorem memWrite_error_iff {s : State} {addr v : Word} {f : Fault} :
    memWrite s addr v = .error f ↔ config.ramSize ≤ addr.toNat ∧ f = .outOfRange .ram addr.toNat := by
  unfold memWrite
  split <;> simp_all [eq_comm]

theorem inScreen_iff {addr : Word} :
    inScreen addr = true ↔
      config.screenBase ≤ addr.toNat ∧ addr.toNat < config.screenBase + config.screenLen := by
  simp [inScreen]

theorem isKeyboard_iff {addr : Word} : isKeyboard addr = true ↔ addr.toNat = config.kbdAddr := by
  simp [isKeyboard]

/-! ### The tick -/

/-- Everything an accepted tick says: the guards it passed and the state it committed. -/
theorem tickWith_next_iff {s t : State} {w : Word → Writes} :
    tickWith s w = .next t ↔
      s.a.toNat < config.ramSize ∧
        ¬((w (Memory.get s.ram s.a.toNat)).mem.isSome = true ∧ isKeyboard s.a = true) ∧
        (w (Memory.get s.ram s.a.toNat)).next < config.romSize ∧
        t = commit s (Memory.get s.ram s.a.toNat) (w (Memory.get s.ram s.a.toNat)) := by
  unfold tickWith memRead reject
  generalize Memory.get s.ram s.a.toNat = m
  by_cases h1 : s.a.toNat < config.ramSize
  · rw [if_pos h1]
    dsimp only
    generalize w m = W
    by_cases h2 : W.mem.isSome = true ∧ isKeyboard s.a = true
    · simp [h2.1, h2.2]
    · by_cases h3 : W.next < config.romSize
      · simp only [Bool.and_eq_true, h1, h2, h3, if_true, if_false, Host.Outcome.next.injEq, not_false_eq_true,
          true_and]
        exact eq_comm
      · simp [h2, h3]
  · simp [h1]

/-- Every fault of a tick, in the order of 41_cycle_step R137. -/
theorem tickWith_fault_iff {s : State} {w : Word → Writes} {f : Fault} :
    tickWith s w = .fault f ↔
      (config.ramSize ≤ s.a.toNat ∧ f = .outOfRange .ram s.a.toNat) ∨
      (s.a.toNat < config.ramSize ∧ (w (Memory.get s.ram s.a.toNat)).mem.isSome = true ∧ isKeyboard s.a = true ∧
        f = .keyboardStore s.a.toNat) ∨
      (s.a.toNat < config.ramSize ∧
        ¬((w (Memory.get s.ram s.a.toNat)).mem.isSome = true ∧ isKeyboard s.a = true) ∧
        config.romSize ≤ (w (Memory.get s.ram s.a.toNat)).next ∧
        f = .outOfRange .rom (w (Memory.get s.ram s.a.toNat)).next) := by
  unfold tickWith memRead reject
  generalize Memory.get s.ram s.a.toNat = m
  by_cases h1 : s.a.toNat < config.ramSize
  · have h1' : ¬config.ramSize ≤ s.a.toNat := by omega
    rw [if_pos h1]
    dsimp only
    generalize w m = W
    by_cases h2 : W.mem.isSome = true ∧ isKeyboard s.a = true
    · simp only [Bool.and_eq_true, h1, h1', h2, if_true, Host.Outcome.fault.injEq, false_and, true_and, false_or,
        and_self, not_true_eq_false, or_false]
      exact eq_comm
    · by_cases h3 : W.next < config.romSize
      · have h3' : ¬config.romSize ≤ W.next := by omega
        simp only [Bool.and_eq_true, h1', h2, h3, h3', if_true, if_false, false_and, and_false, or_false, false_or,
          reduceCtorEq, false_iff]
        rintro ⟨-, a, b, -⟩
        exact h2 ⟨a, b⟩
      · have h3' : config.romSize ≤ W.next := by omega
        simp only [Bool.and_eq_true, h1, h1', h2, h3, h3', if_false, false_and, true_and, false_or,
          not_false_eq_true, Host.Outcome.fault.injEq]
        constructor
        · exact fun h => .inr h.symm
        · rintro (⟨a, b, -⟩ | h)
          · exact absurd ⟨a, b⟩ h2
          · exact h.symm
  · have h1' : config.ramSize ≤ s.a.toNat := by omega
    simp only [h1, h1', if_false, false_and, true_and, or_false, Host.Outcome.fault.injEq]
    exact eq_comm

/-- A tick never refuses (30_encoding R68). -/
theorem tickWith_ne_refused (s : State) (w : Word → Writes) (r : Refusal) : tickWith s w ≠ .refused r := by
  unfold tickWith reject
  split
  · simp
  · split
    · simp
    · split <;> simp

/-! ### The flags -/

theorem zrFlag_iff {out : Word} : zrFlag out = true ↔ out.toNat = 0 := by
  simp only [zrFlag, decide_eq_true_eq]
  exact ⟨fun h => by rw [h]; rfl, fun h => BitVec.eq_of_toNat_eq h⟩

/-- Bit 15 as a bound on the unsigned value. -/
theorem getLsbD_15 (w : Word) : w.getLsbD 15 = decide (0x8000 ≤ w.toNat) := by
  have h := BitVec.msb_eq_decide w
  rw [BitVec.msb_eq_getLsbD_last] at h
  exact h

theorem ngFlag_iff {out : Word} : ngFlag out = true ↔ 0x8000 ≤ out.toNat := by
  rw [ngFlag, getLsbD_15, decide_eq_true_eq]

/-- The signed value of a word, by cases on bit 15. -/
theorem toInt_cases (w : Word) :
    (w.toNat < 0x8000 ∧ w.toInt = w.toNat) ∨ (0x8000 ≤ w.toNat ∧ w.toInt = (w.toNat : Int) - 0x10000) := by
  rw [BitVec.toInt_eq_toNat_cond]
  split <;> omega

/-- The operand of a tick is the one its latched word gives. -/
theorem yOperand_addr (s : State) (m : Word) : yOperand s m .addr = s.a := rfl

theorem yOperand_mem (s : State) (m : Word) : yOperand s m .mem = m := rfl

/-! ### The two kinds -/

/-- Every constructor's meaning is the one of its kind on its fields (30_encoding R60, R79). -/
theorem exec_eq_runFields (i : Instr) (s : State) : exec i s = runFields i.fields s := by
  cases i <;> rfl

theorem runFields_address (v : BitVec 15) (s : State) :
    runFields (.address v) s = tickWith s fun _ => addressWrites s v := rfl

theorem runFields_compute (y : Operand) (c : Code) (d : Dest) (j : Jump) (s : State) :
    runFields (.compute y c d j) s = tickWith s (computeWrites s y c d j) := rfl

/-- What a tick writes, for either kind. -/
theorem exec_eq_tickWith (i : Instr) (s : State) :
    ∃ w, exec i s = tickWith s w ∧
      ((∃ v, i.fields = .address v ∧ w = fun _ => addressWrites s v) ∨
        ∃ y c d j, i.fields = .compute y c d j ∧ w = computeWrites s y c d j) := by
  rw [exec_eq_runFields]
  cases h : i.fields with
  | address v => exact ⟨_, rfl, .inl ⟨v, rfl, rfl⟩⟩
  | compute y c d j => exact ⟨_, rfl, .inr ⟨y, c, d, j, rfl, rfl⟩⟩

theorem exec_ne_refused (i : Instr) (s : State) (r : Refusal) : exec i s ≠ .refused r := by
  obtain ⟨w, h, -⟩ := exec_eq_tickWith i s
  rw [h]
  exact tickWith_ne_refused s w r

theorem selected_isSome (b : Bool) (v : Word) : (selected b v).isSome = b := by cases b <;> rfl

theorem selected_getD (b : Bool) (v u : Word) : (selected b v).getD u = if b then v else u := by cases b <;> rfl

/-! ### The fetch and the step -/

theorem fetch_ok_iff {s : State} {i : Instr} :
    fetch s = .ok i ↔
      s.a.toNat < config.ramSize ∧ s.pc.toNat < config.romSize ∧ i = decode (Memory.get s.rom s.pc.toNat) := by
  unfold fetch memRead romRead
  by_cases h1 : s.a.toNat < config.ramSize
  · by_cases h2 : s.pc.toNat < config.romSize <;> simp [h1, h2, eq_comm]
  · simp [h1]

theorem fetch_error_iff {s : State} {f : Fault} :
    fetch s = .error f ↔
      (config.ramSize ≤ s.a.toNat ∧ f = .outOfRange .ram s.a.toNat) ∨
      (s.a.toNat < config.ramSize ∧ config.romSize ≤ s.pc.toNat ∧ f = .outOfRange .rom s.pc.toNat) := by
  unfold fetch memRead romRead
  by_cases h1 : s.a.toNat < config.ramSize
  · have h1' : ¬config.ramSize ≤ s.a.toNat := by omega
    by_cases h2 : s.pc.toNat < config.romSize
    · have h2' : ¬config.romSize ≤ s.pc.toNat := by omega
      simp [h1, h1', h2, h2']
    · have h2' : config.romSize ≤ s.pc.toNat := by omega
      simp [h1, h1', h2, h2', eq_comm]
  · have h1' : config.ramSize ≤ s.a.toNat := by omega
    simp [h1, h1', eq_comm]

/-- An accepted step executed the instruction at `ROM[PC]`. -/
theorem step_next_iff {s t : State} :
    step s = .next t ↔ ∃ i, fetch s = .ok i ∧ exec i s = .next t := by
  unfold step reject
  cases h : fetch s <;> simp

theorem step_fault_iff {s : State} {f : Fault} :
    step s = .fault f ↔ fetch s = .error f ∨ ∃ i, fetch s = .ok i ∧ exec i s = .fault f := by
  unfold step reject
  cases h : fetch s <;> simp

theorem step_ne_refused (s : State) (r : Refusal) : step s ≠ .refused r := by
  unfold step reject
  split
  · simp
  · exact exec_ne_refused _ _ _

/-! ### The host's calls -/

theorem tick_next_iff {s : State} {p : State × List Note} :
    tick s = .next p ↔ step s = .next p.1 ∧ p.2 = tickNotes s := by
  unfold tick
  obtain ⟨t, n⟩ := p
  cases h : step s <;> simp [eq_comm]

/-- A call by its outcome: what it leaves and what it notifies. -/
theorem afterCall_next {c : HostCall} {s : State} {r : Reply} (h : call c s = .next r) :
    afterCall c s = r.state ∧ callNotes c s = r.notes := by
  simp [afterCall, callNotes, h]

theorem afterCall_fault {c : HostCall} {s : State} {f : Fault} (h : call c s = .fault f) :
    afterCall c s = s ∧ callNotes c s = [] := by
  simp [afterCall, callNotes, h]

theorem session_cons (c : HostCall) (rest : List HostCall) (s : State) :
    session (c :: rest) s =
      ((session rest (afterCall c s)).1, callNotes c s ++ (session rest (afterCall c s)).2) := rfl

theorem tick_fault_iff {s : State} {f : Fault} : tick s = .fault f ↔ step s = .fault f := by
  unfold tick
  cases h : step s <;> simp

theorem lineOk_iff {l : Line} : lineOk l = true ↔ l.length = 16 ∧ ∀ ch ∈ l, ch = '0' ∨ ch = '1' := by
  simp [lineOk]

theorem badLines_eq_nil_iff {k : Nat} {lines : List Line} :
    badLines k lines = [] ↔ ∀ l ∈ lines, lineOk l = true := by
  induction lines generalizing k with
  | nil => simp [badLines]
  | cons l rest ih =>
    unfold badLines
    split <;> simp_all

theorem loadErrors_eq_nil_iff {lines : List Line} :
    loadErrors lines = [] ↔ lines.length ≤ config.romSize ∧ ∀ l ∈ lines, lineOk l = true := by
  unfold loadErrors
  rw [List.append_eq_nil_iff, badLines_eq_nil_iff]
  refine and_congr ?_ Iff.rfl
  split
  · simp; omega
  · simp; omega

theorem loadProgram_ok_iff {lines : List Line} {s t : State} :
    loadProgram lines s = .ok t ↔
      loadErrors lines = [] ∧ t = { s with rom := memoryOf 0 (lines.map lineWord) } := by
  unfold loadProgram
  cases h : loadErrors lines <;> simp [eq_comm]

/-- A rejected load reports one of the errors that hold (R222). -/
theorem loadProgram_error {lines : List Line} {s : State} {f : Fault} (h : loadProgram lines s = .error f) :
    ∃ e ∈ loadErrors lines, f = .formatError e := by
  unfold loadProgram at h
  cases hl : loadErrors lines with
  | nil => simp [hl] at h
  | cons e rest =>
    rw [hl] at h
    have hlt : Config.reportedCause lines % (rest.length + 1) < (e :: rest).length := by
      simpa using Nat.mod_lt _ (Nat.succ_pos rest.length)
    refine ⟨(e :: rest)[Config.reportedCause lines % (rest.length + 1)], List.getElem_mem hlt, ?_⟩
    simp only [Except.error.injEq] at h
    rw [← h, List.getD_eq_getElem _ _ hlt]

end Sys2Proof.Machine
end

