-- ==== Sys2Proof/Laws/PerInstr.lean ====
section
/-! SUPPORT. Families of statements about every instruction as syntax, one lemma per constructor. -/

namespace Sys2Proof.Laws

/-- The word of an instruction holds every field of it: no bit of an operand is dropped and none is moved. -/
def EncodesFields.Statement (i : Instr) : Prop := decodeFields (encode i) = i.fields

theorem EncodesFields.atValue (value : BitVec 15) :
    EncodesFields.Statement (.atValue value) := decodeFields_encodeFields _

theorem EncodesFields.compute (y : Operand) (c : Code) (d : Dest) (j : Jump) :
    EncodesFields.Statement (.compute y c d j) := decodeFields_encodeFields _

theorem EncodesFields.comp0 (d : Dest) (j : Jump) :
    EncodesFields.Statement (.comp0 d j) := decodeFields_encodeFields _

theorem EncodesFields.comp1 (d : Dest) (j : Jump) :
    EncodesFields.Statement (.comp1 d j) := decodeFields_encodeFields _

theorem EncodesFields.compNeg1 (d : Dest) (j : Jump) :
    EncodesFields.Statement (.compNeg1 d j) := decodeFields_encodeFields _

theorem EncodesFields.compD (d : Dest) (j : Jump) :
    EncodesFields.Statement (.compD d j) := decodeFields_encodeFields _

theorem EncodesFields.compA (d : Dest) (j : Jump) :
    EncodesFields.Statement (.compA d j) := decodeFields_encodeFields _

theorem EncodesFields.compNotD (d : Dest) (j : Jump) :
    EncodesFields.Statement (.compNotD d j) := decodeFields_encodeFields _

theorem EncodesFields.compNotA (d : Dest) (j : Jump) :
    EncodesFields.Statement (.compNotA d j) := decodeFields_encodeFields _

theorem EncodesFields.compNegD (d : Dest) (j : Jump) :
    EncodesFields.Statement (.compNegD d j) := decodeFields_encodeFields _

theorem EncodesFields.compNegA (d : Dest) (j : Jump) :
    EncodesFields.Statement (.compNegA d j) := decodeFields_encodeFields _

theorem EncodesFields.compDPlus1 (d : Dest) (j : Jump) :
    EncodesFields.Statement (.compDPlus1 d j) := decodeFields_encodeFields _

theorem EncodesFields.compAPlus1 (d : Dest) (j : Jump) :
    EncodesFields.Statement (.compAPlus1 d j) := decodeFields_encodeFields _

theorem EncodesFields.compDMinus1 (d : Dest) (j : Jump) :
    EncodesFields.Statement (.compDMinus1 d j) := decodeFields_encodeFields _

theorem EncodesFields.compAMinus1 (d : Dest) (j : Jump) :
    EncodesFields.Statement (.compAMinus1 d j) := decodeFields_encodeFields _

theorem EncodesFields.compDPlusA (d : Dest) (j : Jump) :
    EncodesFields.Statement (.compDPlusA d j) := decodeFields_encodeFields _

theorem EncodesFields.compDMinusA (d : Dest) (j : Jump) :
    EncodesFields.Statement (.compDMinusA d j) := decodeFields_encodeFields _

theorem EncodesFields.compAMinusD (d : Dest) (j : Jump) :
    EncodesFields.Statement (.compAMinusD d j) := decodeFields_encodeFields _

theorem EncodesFields.compDAndA (d : Dest) (j : Jump) :
    EncodesFields.Statement (.compDAndA d j) := decodeFields_encodeFields _

theorem EncodesFields.compDOrA (d : Dest) (j : Jump) :
    EncodesFields.Statement (.compDOrA d j) := decodeFields_encodeFields _

theorem EncodesFields.compM (d : Dest) (j : Jump) :
    EncodesFields.Statement (.compM d j) := decodeFields_encodeFields _

theorem EncodesFields.compNotM (d : Dest) (j : Jump) :
    EncodesFields.Statement (.compNotM d j) := decodeFields_encodeFields _

theorem EncodesFields.compNegM (d : Dest) (j : Jump) :
    EncodesFields.Statement (.compNegM d j) := decodeFields_encodeFields _

theorem EncodesFields.compMPlus1 (d : Dest) (j : Jump) :
    EncodesFields.Statement (.compMPlus1 d j) := decodeFields_encodeFields _

theorem EncodesFields.compMMinus1 (d : Dest) (j : Jump) :
    EncodesFields.Statement (.compMMinus1 d j) := decodeFields_encodeFields _

theorem EncodesFields.compDPlusM (d : Dest) (j : Jump) :
    EncodesFields.Statement (.compDPlusM d j) := decodeFields_encodeFields _

theorem EncodesFields.compDMinusM (d : Dest) (j : Jump) :
    EncodesFields.Statement (.compDMinusM d j) := decodeFields_encodeFields _

theorem EncodesFields.compMMinusD (d : Dest) (j : Jump) :
    EncodesFields.Statement (.compMMinusD d j) := decodeFields_encodeFields _

theorem EncodesFields.compDAndM (d : Dest) (j : Jump) :
    EncodesFields.Statement (.compDAndM d j) := decodeFields_encodeFields _

theorem EncodesFields.compDOrM (d : Dest) (j : Jump) :
    EncodesFields.Statement (.compDOrM d j) := decodeFields_encodeFields _

theorem EncodesFields.destNull (y : Operand) (c : Code) (j : Jump) :
    EncodesFields.Statement (.destNull y c j) := decodeFields_encodeFields _

theorem EncodesFields.destM (y : Operand) (c : Code) (j : Jump) :
    EncodesFields.Statement (.destM y c j) := decodeFields_encodeFields _

theorem EncodesFields.destD (y : Operand) (c : Code) (j : Jump) :
    EncodesFields.Statement (.destD y c j) := decodeFields_encodeFields _

theorem EncodesFields.destMD (y : Operand) (c : Code) (j : Jump) :
    EncodesFields.Statement (.destMD y c j) := decodeFields_encodeFields _

theorem EncodesFields.destA (y : Operand) (c : Code) (j : Jump) :
    EncodesFields.Statement (.destA y c j) := decodeFields_encodeFields _

theorem EncodesFields.destAM (y : Operand) (c : Code) (j : Jump) :
    EncodesFields.Statement (.destAM y c j) := decodeFields_encodeFields _

theorem EncodesFields.destAD (y : Operand) (c : Code) (j : Jump) :
    EncodesFields.Statement (.destAD y c j) := decodeFields_encodeFields _

theorem EncodesFields.destAMD (y : Operand) (c : Code) (j : Jump) :
    EncodesFields.Statement (.destAMD y c j) := decodeFields_encodeFields _

theorem EncodesFields.jumpNull (y : Operand) (c : Code) (d : Dest) :
    EncodesFields.Statement (.jumpNull y c d) := decodeFields_encodeFields _

theorem EncodesFields.jumpJGT (y : Operand) (c : Code) (d : Dest) :
    EncodesFields.Statement (.jumpJGT y c d) := decodeFields_encodeFields _

theorem EncodesFields.jumpJEQ (y : Operand) (c : Code) (d : Dest) :
    EncodesFields.Statement (.jumpJEQ y c d) := decodeFields_encodeFields _

theorem EncodesFields.jumpJGE (y : Operand) (c : Code) (d : Dest) :
    EncodesFields.Statement (.jumpJGE y c d) := decodeFields_encodeFields _

theorem EncodesFields.jumpJLT (y : Operand) (c : Code) (d : Dest) :
    EncodesFields.Statement (.jumpJLT y c d) := decodeFields_encodeFields _

theorem EncodesFields.jumpJNE (y : Operand) (c : Code) (d : Dest) :
    EncodesFields.Statement (.jumpJNE y c d) := decodeFields_encodeFields _

theorem EncodesFields.jumpJLE (y : Operand) (c : Code) (d : Dest) :
    EncodesFields.Statement (.jumpJLE y c d) := decodeFields_encodeFields _

theorem EncodesFields.jumpJMP (y : Operand) (c : Code) (d : Dest) :
    EncodesFields.Statement (.jumpJMP y c d) := decodeFields_encodeFields _

end Sys2Proof.Laws
end

