-- ==== Sys2Proof/Tests/Slice0.lean ====
section
/-! SUPPORT. The model's own tests: the WellFormed smoke tests, words written out from the spec, single steps of the vectors of
95_test_vectors, and a witness for every statement that has hypotheses. Every expected value comes from the spec. -/

namespace Sys2Proof.Tests

open Sys2Proof.Machine Sys2Proof.Claims

/-! ### Helpers -/

/-- A state with a word at `ROM[PC]`. -/
def at' (pc a d : Word) (ram : Memory) (w : Word) : State := placeAtPc ⟨pc, a, d, 0, ram, []⟩ w

/-- `(PC, A, D, ML)` of a next state. -/
def regs : Result → Option (Word × Word × Word × Word)
  | .next t => some (t.pc, t.a, t.d, t.ml)
  | .fault _ => none
  | .refused _ => none

/-- RAM of a next state. -/
def ramOf : Result → Option Memory
  | .next t => some t.ram
  | .fault _ => none
  | .refused _ => none

/-- The fault of a rejected step. -/
def faultOf : Result → Option Fault
  | .next _ => none
  | .fault f => some f
  | .refused _ => none

/-- Registers, RAM and ROM after an accepted call. -/
def replyState : Host.Outcome Reply Fault Refusal → Option State
  | .next r => some r.state
  | .fault _ => none
  | .refused _ => none

/-- The notifications of an accepted call. -/
def replyNotes : Host.Outcome Reply Fault Refusal → Option (List Note)
  | .next r => some r.notes
  | .fault _ => none
  | .refused _ => none

/-- The word an accepted read returns. -/
def replyValue : Host.Outcome Reply Fault Refusal → Option Word
  | .next r => r.value
  | .fault _ => none
  | .refused _ => none

/-- The fault of a rejected call. -/
def callFault : Host.Outcome Reply Fault Refusal → Option Fault
  | .next _ => none
  | .fault f => some f
  | .refused _ => none

/-! ### Configuration and reset -/

/-- 00_scope R7: the constraints of the parameters. -/
theorem test_config_valid : config.valid = true := by decide

/-- 10_state R31. -/
theorem test_reset_registers :
    (State.reset.pc, State.reset.a, State.reset.d, State.reset.ml) = (0#16, 0#16, 0#16, 0#16) := by decide

theorem test_reset_memories_canonical : Memory.wf State.reset.ram = true ∧ Memory.wf State.reset.rom = true := by decide

/-! ### WellFormed: every check refuses an ill-formed term -/

/-- The general row with a documented code, without a destination, without a jump. -/
theorem test_wf_compute : (Instr.compute .addr 0b101010#6 .D .JMP).wf = false ∧
    (Instr.compute .addr 0b010111#6 .null .JMP).wf = false ∧ (Instr.compute .addr 0b010111#6 .D .null).wf = false ∧
    (Instr.compute .addr 0b010111#6 .D .JMP).wf = true := by decide

/-- A destination row with a documented code. -/
theorem test_wf_dest_documented : (Instr.destNull .addr 0b001100#6 .null).wf = false ∧
    (Instr.destM .mem 0b110000#6 .null).wf = false ∧ (Instr.destD .addr 0b001100#6 .null).wf = false ∧
    (Instr.destMD .addr 0b001100#6 .null).wf = false ∧ (Instr.destA .addr 0b001100#6 .null).wf = false ∧
    (Instr.destAM .addr 0b001100#6 .null).wf = false ∧ (Instr.destAD .addr 0b001100#6 .null).wf = false ∧
    (Instr.destAMD .addr 0b001100#6 .null).wf = false := by decide

/-- A destination row with a jump. -/
theorem test_wf_dest_jump : (Instr.destNull .addr 0b010111#6 .JMP).wf = false ∧
    (Instr.destM .addr 0b010111#6 .JGT).wf = false ∧ (Instr.destD .addr 0b010111#6 .JEQ).wf = false ∧
    (Instr.destMD .addr 0b010111#6 .JGE).wf = false ∧ (Instr.destA .addr 0b010111#6 .JLT).wf = false ∧
    (Instr.destAM .addr 0b010111#6 .JNE).wf = false ∧ (Instr.destAD .addr 0b010111#6 .JLE).wf = false ∧
    (Instr.destAMD .addr 0b010111#6 .JMP).wf = false := by decide

/-- The two rows for a computation alone are told apart by the a-bit. -/
theorem test_wf_null_rows : (Instr.destNull .mem 0b010111#6 .null).wf = false ∧
    (Instr.jumpNull .addr 0b010111#6 .null).wf = false ∧ (Instr.destNull .addr 0b010111#6 .null).wf = true ∧
    (Instr.jumpNull .mem 0b010111#6 .null).wf = true := by decide

/-- A jump row with a documented code. -/
theorem test_wf_jump_documented : (Instr.jumpNull .mem 0b110000#6 .null).wf = false ∧
    (Instr.jumpJGT .addr 0b001100#6 .null).wf = false ∧ (Instr.jumpJEQ .addr 0b001100#6 .null).wf = false ∧
    (Instr.jumpJGE .addr 0b001100#6 .null).wf = false ∧ (Instr.jumpJLT .addr 0b001100#6 .null).wf = false ∧
    (Instr.jumpJNE .addr 0b001100#6 .null).wf = false ∧ (Instr.jumpJLE .addr 0b001100#6 .null).wf = false ∧
    (Instr.jumpJMP .addr 0b001100#6 .null).wf = false := by decide

/-- A jump row with a destination. -/
theorem test_wf_jump_dest : (Instr.jumpNull .mem 0b010111#6 .D).wf = false ∧
    (Instr.jumpJGT .addr 0b010111#6 .M).wf = false ∧ (Instr.jumpJEQ .addr 0b010111#6 .D).wf = false ∧
    (Instr.jumpJGE .addr 0b010111#6 .MD).wf = false ∧ (Instr.jumpJLT .addr 0b010111#6 .A).wf = false ∧
    (Instr.jumpJNE .addr 0b010111#6 .AM).wf = false ∧ (Instr.jumpJLE .addr 0b010111#6 .AD).wf = false ∧
    (Instr.jumpJMP .addr 0b010111#6 .AMD).wf = false := by decide

/-! ### Decoding: one word for every constructor, written out from the formats of 30_encoding R61 to R75 -/

/-- `0 vvvvvvvvvvvvvvv`: the word the source prints, the all-zero word and the largest immediate (95_test_vectors S2, A1, A2). -/
theorem test_decode_address : decode 0b0000000000000101#16 = .atValue 5#15 ∧ decode 0x0000#16 = .atValue 0#15 ∧
    decode 0x7FFF#16 = .atValue 32767#15 := by decide

/-- `111 a cccccc ddd jjj`: the words `D=comp` of 95_test_vectors 4.1, constants, copies, complements, negations. -/
theorem test_decode_constants_copies :
    decode 0b1110101010010000#16 = .comp0 .D .null ∧
    decode 0b1110111111010000#16 = .comp1 .D .null ∧
    decode 0b1110111010010000#16 = .compNeg1 .D .null ∧
    decode 0b1110001100010000#16 = .compD .D .null ∧
    decode 0b1110110000010000#16 = .compA .D .null ∧
    decode 0b1110001101010000#16 = .compNotD .D .null ∧
    decode 0b1110110001010000#16 = .compNotA .D .null ∧
    decode 0b1110001111010000#16 = .compNegD .D .null ∧
    decode 0b1110110011010000#16 = .compNegA .D .null := by decide

/-- The same for the arithmetic over `D` and `A`. -/
theorem test_decode_registers :
    decode 0b1110011111010000#16 = .compDPlus1 .D .null ∧
    decode 0b1110110111010000#16 = .compAPlus1 .D .null ∧
    decode 0b1110001110010000#16 = .compDMinus1 .D .null ∧
    decode 0b1110110010010000#16 = .compAMinus1 .D .null ∧
    decode 0b1110000010010000#16 = .compDPlusA .D .null ∧
    decode 0b1110010011010000#16 = .compDMinusA .D .null ∧
    decode 0b1110000111010000#16 = .compAMinusD .D .null ∧
    decode 0b1110000000010000#16 = .compDAndA .D .null ∧
    decode 0b1110010101010000#16 = .compDOrA .D .null := by decide

/-- The same for the computations over the memory operand. -/
theorem test_decode_memory :
    decode 0b1111110000010000#16 = .compM .D .null ∧
    decode 0b1111110001010000#16 = .compNotM .D .null ∧
    decode 0b1111110011010000#16 = .compNegM .D .null ∧
    decode 0b1111110111010000#16 = .compMPlus1 .D .null ∧
    decode 0b1111110010010000#16 = .compMMinus1 .D .null ∧
    decode 0b1111000010010000#16 = .compDPlusM .D .null ∧
    decode 0b1111010011010000#16 = .compDMinusM .D .null ∧
    decode 0b1111000111010000#16 = .compMMinusD .D .null ∧
    decode 0b1111000000010000#16 = .compDAndM .D .null ∧
    decode 0b1111010101010000#16 = .compDOrM .D .null := by decide

/-- Every destination code of R74, with the code `010111` that has no mnemonic (row choice: log 4). -/
theorem test_decode_destinations :
    decode 0b1110010111000000#16 = .destNull .addr 0b010111#6 .null ∧
    decode 0b1110010111001000#16 = .destM .addr 0b010111#6 .null ∧
    decode 0b1110010111010000#16 = .destD .addr 0b010111#6 .null ∧
    decode 0b1110010111011000#16 = .destMD .addr 0b010111#6 .null ∧
    decode 0b1110010111100000#16 = .destA .addr 0b010111#6 .null ∧
    decode 0b1110010111101000#16 = .destAM .addr 0b010111#6 .null ∧
    decode 0b1110010111110000#16 = .destAD .addr 0b010111#6 .null ∧
    decode 0b1110010111111000#16 = .destAMD .addr 0b010111#6 .null := by decide

/-- Every jump code of R75, with a = 1 and the code `010111` (row choice: log 4). -/
theorem test_decode_jumps :
    decode 0b1111010111000000#16 = .jumpNull .mem 0b010111#6 .null ∧
    decode 0b1111010111000001#16 = .jumpJGT .mem 0b010111#6 .null ∧
    decode 0b1111010111000010#16 = .jumpJEQ .mem 0b010111#6 .null ∧
    decode 0b1111010111000011#16 = .jumpJGE .mem 0b010111#6 .null ∧
    decode 0b1111010111000100#16 = .jumpJLT .mem 0b010111#6 .null ∧
    decode 0b1111010111000101#16 = .jumpJNE .mem 0b010111#6 .null ∧
    decode 0b1111010111000110#16 = .jumpJLE .mem 0b010111#6 .null ∧
    decode 0b1111010111000111#16 = .jumpJMP .mem 0b010111#6 .null := by decide

/-- 95_test_vectors 4.2: `D+1` with every destination. -/
theorem test_decode_documented_destinations :
    decode 0b1110011111000000#16 = .compDPlus1 .null .null ∧
    decode 0b1110011111001000#16 = .compDPlus1 .M .null ∧
    decode 0b1110011111010000#16 = .compDPlus1 .D .null ∧
    decode 0b1110011111011000#16 = .compDPlus1 .MD .null ∧
    decode 0b1110011111100000#16 = .compDPlus1 .A .null ∧
    decode 0b1110011111101000#16 = .compDPlus1 .AM .null ∧
    decode 0b1110011111110000#16 = .compDPlus1 .AD .null ∧
    decode 0b1110011111111000#16 = .compDPlus1 .AMD .null := by decide

/-- 95_test_vectors 4.3: `D` with every jump. -/
theorem test_decode_documented_jumps :
    decode 0b1110001100000000#16 = .compD .null .null ∧
    decode 0b1110001100000001#16 = .compD .null .JGT ∧
    decode 0b1110001100000010#16 = .compD .null .JEQ ∧
    decode 0b1110001100000011#16 = .compD .null .JGE ∧
    decode 0b1110001100000100#16 = .compD .null .JLT ∧
    decode 0b1110001100000101#16 = .compD .null .JNE ∧
    decode 0b1110001100000110#16 = .compD .null .JLE ∧
    decode 0b1110001100000111#16 = .compD .null .JMP := by decide

/-- The general row: an undocumented code with a destination and a jump. -/
theorem test_decode_general : decode 0b1111111110111101#16 = .compute .mem 0b111110#6 .AMD .JNE := by decide

/-- Bits 14 and 13 are ignored (R69; 95_test_vectors C17, C18). -/
theorem test_decode_unused_bits : decode 0x8090#16 = .compDPlusA .D .null ∧ decode 0xC090#16 = .compDPlusA .D .null ∧
    decode 0xA090#16 = .compDPlusA .D .null := by decide

/-- R69: the canonical word has them set. -/
theorem test_encode_canonical : encode (.compDPlusA .D .null) = 0xE090#16 ∧ encode (.atValue 5#15) = 0x0005#16 := by decide

/-- A table word shorter than the instruction, and one longer than it. -/
theorem test_table_word : decodeTableWord 16 0xEA87 = some (.comp0 .null .JMP) ∧ decodeTableWord 17 0xEA87 = none := by decide

/-- Disassembly: 95_test_vectors S6 and C15. -/
theorem test_disasm : disasm 0x0005#16 = "@5" ∧ disasm 0x7FFF#16 = "@32767" ∧ disasm 0xFC10#16 = "D=M" ∧
    disasm 0xEFC8#16 = "M=1" ∧ disasm 0xEA87#16 = "0;JMP" ∧ disasm 0xE302#16 = "D;JEQ" ∧ disasm 0xE5D0#16 = "D=?" := by
  decide

/-! ### One step of every instruction, from the vectors of 95_test_vectors -/

/-- A2, A3: the immediate, with `ML` from the old address. -/
theorem test_step_address : regs (step (at' 10 5 3 [(5, 0x00AA)] 0x7FFF)) = some (11, 32767, 3, 170) ∧
    regs (step (at' 7 4660 9 [(4660, 0x4321)] 0x0005)) = some (8, 5, 9, 17185) := by decide

/-- C15, C16: codes without a mnemonic, by the general row. -/
theorem test_exec_general : regs (exec (.compute .addr 0b010111#6 .D .null) (at' 0 3 4 [] 0)) = some (1, 3, 8, 0) ∧
    regs (exec (.compute .mem 0b111110#6 .D .null) (at' 0 3 4 [(3, 9)] 0)) = some (1, 3, 65534, 9) := by decide

/-- `0` (R162). -/
theorem test_step_comp0 : regs (step (at' 0 0x0003 0x0005 [(0x0003, 0x0009)] 0xEA90)) = some (1, 0x0003, 0x0000, 0x0009) ∧
    regs (step (at' 0 0x7FFF 0x8000 [(0x7FFF, 0xFFFF)] 0xEA90)) = some (1, 0x7FFF, 0x0000, 0xFFFF) := by decide

/-- `1` (R163). -/
theorem test_step_comp1 : regs (step (at' 0 0x0003 0x0005 [(0x0003, 0x0009)] 0xEFD0)) = some (1, 0x0003, 0x0001, 0x0009) ∧
    regs (step (at' 0 0x7FFF 0x8000 [(0x7FFF, 0xFFFF)] 0xEFD0)) = some (1, 0x7FFF, 0x0001, 0xFFFF) := by decide

/-- `-1` (R164). -/
theorem test_step_compNeg1 : regs (step (at' 0 0x0003 0x0005 [(0x0003, 0x0009)] 0xEE90)) = some (1, 0x0003, 0xFFFF, 0x0009) ∧
    regs (step (at' 0 0x7FFF 0x8000 [(0x7FFF, 0xFFFF)] 0xEE90)) = some (1, 0x7FFF, 0xFFFF, 0xFFFF) := by decide

/-- `D` (R165). -/
theorem test_step_compD : regs (step (at' 0 0x0003 0x0005 [(0x0003, 0x0009)] 0xE310)) = some (1, 0x0003, 0x0005, 0x0009) ∧
    regs (step (at' 0 0x7FFF 0x8000 [(0x7FFF, 0xFFFF)] 0xE310)) = some (1, 0x7FFF, 0x8000, 0xFFFF) := by decide

/-- `A` (R166). -/
theorem test_step_compA : regs (step (at' 0 0x0003 0x0005 [(0x0003, 0x0009)] 0xEC10)) = some (1, 0x0003, 0x0003, 0x0009) ∧
    regs (step (at' 0 0x7FFF 0x8000 [(0x7FFF, 0xFFFF)] 0xEC10)) = some (1, 0x7FFF, 0x7FFF, 0xFFFF) := by decide

/-- `!D` (R167). -/
theorem test_step_compNotD : regs (step (at' 0 0x0003 0x0005 [(0x0003, 0x0009)] 0xE350)) = some (1, 0x0003, 0xFFFA, 0x0009) ∧
    regs (step (at' 0 0x7FFF 0x8000 [(0x7FFF, 0xFFFF)] 0xE350)) = some (1, 0x7FFF, 0x7FFF, 0xFFFF) := by decide

/-- `!A` (R168). -/
theorem test_step_compNotA : regs (step (at' 0 0x0003 0x0005 [(0x0003, 0x0009)] 0xEC50)) = some (1, 0x0003, 0xFFFC, 0x0009) ∧
    regs (step (at' 0 0x7FFF 0x8000 [(0x7FFF, 0xFFFF)] 0xEC50)) = some (1, 0x7FFF, 0x8000, 0xFFFF) := by decide

/-- `-D` (R169). -/
theorem test_step_compNegD : regs (step (at' 0 0x0003 0x0005 [(0x0003, 0x0009)] 0xE3D0)) = some (1, 0x0003, 0xFFFB, 0x0009) ∧
    regs (step (at' 0 0x7FFF 0x8000 [(0x7FFF, 0xFFFF)] 0xE3D0)) = some (1, 0x7FFF, 0x8000, 0xFFFF) := by decide

/-- `-A` (R170). -/
theorem test_step_compNegA : regs (step (at' 0 0x0003 0x0005 [(0x0003, 0x0009)] 0xECD0)) = some (1, 0x0003, 0xFFFD, 0x0009) ∧
    regs (step (at' 0 0x7FFF 0x8000 [(0x7FFF, 0xFFFF)] 0xECD0)) = some (1, 0x7FFF, 0x8001, 0xFFFF) := by decide

/-- `D+1` (R171). -/
theorem test_step_compDPlus1 : regs (step (at' 0 0x0003 0x0005 [(0x0003, 0x0009)] 0xE7D0)) = some (1, 0x0003, 0x0006, 0x0009) ∧
    regs (step (at' 0 0x7FFF 0x8000 [(0x7FFF, 0xFFFF)] 0xE7D0)) = some (1, 0x7FFF, 0x8001, 0xFFFF) := by decide

/-- `A+1` (R172). -/
theorem test_step_compAPlus1 : regs (step (at' 0 0x0003 0x0005 [(0x0003, 0x0009)] 0xEDD0)) = some (1, 0x0003, 0x0004, 0x0009) ∧
    regs (step (at' 0 0x7FFF 0x8000 [(0x7FFF, 0xFFFF)] 0xEDD0)) = some (1, 0x7FFF, 0x8000, 0xFFFF) := by decide

/-- `D-1` (R173). -/
theorem test_step_compDMinus1 : regs (step (at' 0 0x0003 0x0005 [(0x0003, 0x0009)] 0xE390)) = some (1, 0x0003, 0x0004, 0x0009) ∧
    regs (step (at' 0 0x7FFF 0x8000 [(0x7FFF, 0xFFFF)] 0xE390)) = some (1, 0x7FFF, 0x7FFF, 0xFFFF) := by decide

/-- `A-1` (R174). -/
theorem test_step_compAMinus1 : regs (step (at' 0 0x0003 0x0005 [(0x0003, 0x0009)] 0xEC90)) = some (1, 0x0003, 0x0002, 0x0009) ∧
    regs (step (at' 0 0x7FFF 0x8000 [(0x7FFF, 0xFFFF)] 0xEC90)) = some (1, 0x7FFF, 0x7FFE, 0xFFFF) := by decide

/-- `D+A` (R175). -/
theorem test_step_compDPlusA : regs (step (at' 0 0x0003 0x0005 [(0x0003, 0x0009)] 0xE090)) = some (1, 0x0003, 0x0008, 0x0009) ∧
    regs (step (at' 0 0x7FFF 0x8000 [(0x7FFF, 0xFFFF)] 0xE090)) = some (1, 0x7FFF, 0xFFFF, 0xFFFF) := by decide

/-- `D-A` (R176). -/
theorem test_step_compDMinusA : regs (step (at' 0 0x0003 0x0005 [(0x0003, 0x0009)] 0xE4D0)) = some (1, 0x0003, 0x0002, 0x0009) ∧
    regs (step (at' 0 0x7FFF 0x8000 [(0x7FFF, 0xFFFF)] 0xE4D0)) = some (1, 0x7FFF, 0x0001, 0xFFFF) := by decide

/-- `A-D` (R177). -/
theorem test_step_compAMinusD : regs (step (at' 0 0x0003 0x0005 [(0x0003, 0x0009)] 0xE1D0)) = some (1, 0x0003, 0xFFFE, 0x0009) ∧
    regs (step (at' 0 0x7FFF 0x8000 [(0x7FFF, 0xFFFF)] 0xE1D0)) = some (1, 0x7FFF, 0xFFFF, 0xFFFF) := by decide

/-- `D&A` (R178). -/
theorem test_step_compDAndA : regs (step (at' 0 0x0003 0x0005 [(0x0003, 0x0009)] 0xE010)) = some (1, 0x0003, 0x0001, 0x0009) ∧
    regs (step (at' 0 0x7FFF 0x8000 [(0x7FFF, 0xFFFF)] 0xE010)) = some (1, 0x7FFF, 0x0000, 0xFFFF) := by decide

/-- `D|A` (R179). -/
theorem test_step_compDOrA : regs (step (at' 0 0x0003 0x0005 [(0x0003, 0x0009)] 0xE550)) = some (1, 0x0003, 0x0007, 0x0009) ∧
    regs (step (at' 0 0x7FFF 0x8000 [(0x7FFF, 0xFFFF)] 0xE550)) = some (1, 0x7FFF, 0xFFFF, 0xFFFF) := by decide

/-- `M` (R180). -/
theorem test_step_compM : regs (step (at' 0 0x0003 0x0005 [(0x0003, 0x0009)] 0xFC10)) = some (1, 0x0003, 0x0009, 0x0009) ∧
    regs (step (at' 0 0x7FFF 0x8000 [(0x7FFF, 0xFFFF)] 0xFC10)) = some (1, 0x7FFF, 0xFFFF, 0xFFFF) := by decide

/-- `!M` (R181). -/
theorem test_step_compNotM : regs (step (at' 0 0x0003 0x0005 [(0x0003, 0x0009)] 0xFC50)) = some (1, 0x0003, 0xFFF6, 0x0009) ∧
    regs (step (at' 0 0x7FFF 0x8000 [(0x7FFF, 0xFFFF)] 0xFC50)) = some (1, 0x7FFF, 0x0000, 0xFFFF) := by decide

/-- `-M` (R182). -/
theorem test_step_compNegM : regs (step (at' 0 0x0003 0x0005 [(0x0003, 0x0009)] 0xFCD0)) = some (1, 0x0003, 0xFFF7, 0x0009) ∧
    regs (step (at' 0 0x7FFF 0x8000 [(0x7FFF, 0xFFFF)] 0xFCD0)) = some (1, 0x7FFF, 0x0001, 0xFFFF) := by decide

/-- `M+1` (R183). -/
theorem test_step_compMPlus1 : regs (step (at' 0 0x0003 0x0005 [(0x0003, 0x0009)] 0xFDD0)) = some (1, 0x0003, 0x000A, 0x0009) ∧
    regs (step (at' 0 0x7FFF 0x8000 [(0x7FFF, 0xFFFF)] 0xFDD0)) = some (1, 0x7FFF, 0x0000, 0xFFFF) := by decide

/-- `M-1` (R184). -/
theorem test_step_compMMinus1 : regs (step (at' 0 0x0003 0x0005 [(0x0003, 0x0009)] 0xFC90)) = some (1, 0x0003, 0x0008, 0x0009) ∧
    regs (step (at' 0 0x7FFF 0x8000 [(0x7FFF, 0xFFFF)] 0xFC90)) = some (1, 0x7FFF, 0xFFFE, 0xFFFF) := by decide

/-- `D+M` (R185). -/
theorem test_step_compDPlusM : regs (step (at' 0 0x0003 0x0005 [(0x0003, 0x0009)] 0xF090)) = some (1, 0x0003, 0x000E, 0x0009) ∧
    regs (step (at' 0 0x7FFF 0x8000 [(0x7FFF, 0xFFFF)] 0xF090)) = some (1, 0x7FFF, 0x7FFF, 0xFFFF) := by decide

/-- `D-M` (R186). -/
theorem test_step_compDMinusM : regs (step (at' 0 0x0003 0x0005 [(0x0003, 0x0009)] 0xF4D0)) = some (1, 0x0003, 0xFFFC, 0x0009) ∧
    regs (step (at' 0 0x7FFF 0x8000 [(0x7FFF, 0xFFFF)] 0xF4D0)) = some (1, 0x7FFF, 0x8001, 0xFFFF) := by decide

/-- `M-D` (R187). -/
theorem test_step_compMMinusD : regs (step (at' 0 0x0003 0x0005 [(0x0003, 0x0009)] 0xF1D0)) = some (1, 0x0003, 0x0004, 0x0009) ∧
    regs (step (at' 0 0x7FFF 0x8000 [(0x7FFF, 0xFFFF)] 0xF1D0)) = some (1, 0x7FFF, 0x7FFF, 0xFFFF) := by decide

/-- `D&M` (R188). -/
theorem test_step_compDAndM : regs (step (at' 0 0x0003 0x0005 [(0x0003, 0x0009)] 0xF010)) = some (1, 0x0003, 0x0001, 0x0009) ∧
    regs (step (at' 0 0x7FFF 0x8000 [(0x7FFF, 0xFFFF)] 0xF010)) = some (1, 0x7FFF, 0x8000, 0xFFFF) := by decide

/-- `D|M` (R189). -/
theorem test_step_compDOrM : regs (step (at' 0 0x0003 0x0005 [(0x0003, 0x0009)] 0xF550)) = some (1, 0x0003, 0x000D, 0x0009) ∧
    regs (step (at' 0 0x7FFF 0x8000 [(0x7FFF, 0xFFFF)] 0xF550)) = some (1, 0x7FFF, 0xFFFF, 0xFFFF) := by decide

/-- 4.2, destination `null`. -/
theorem test_exec_destNull :
    regs (exec (.destNull .addr 0b011111#6 .null) (at' 0 3 7 [(3, 0x55), (8, 0x66)] 0)) = some (1, 3, 7, 85) ∧
    ramOf (exec (.destNull .addr 0b011111#6 .null) (at' 0 3 7 [(3, 0x55), (8, 0x66)] 0)) = some [(3, 0x55), (8, 0x66)] := by decide

/-- 4.2, destination `M`. -/
theorem test_exec_destM :
    regs (exec (.destM .addr 0b011111#6 .null) (at' 0 3 7 [(3, 0x55), (8, 0x66)] 0)) = some (1, 3, 7, 85) ∧
    ramOf (exec (.destM .addr 0b011111#6 .null) (at' 0 3 7 [(3, 0x55), (8, 0x66)] 0)) = some [(3, 8), (8, 0x66)] := by decide

/-- 4.2, destination `D`. -/
theorem test_exec_destD :
    regs (exec (.destD .addr 0b011111#6 .null) (at' 0 3 7 [(3, 0x55), (8, 0x66)] 0)) = some (1, 3, 8, 85) ∧
    ramOf (exec (.destD .addr 0b011111#6 .null) (at' 0 3 7 [(3, 0x55), (8, 0x66)] 0)) = some [(3, 0x55), (8, 0x66)] := by decide

/-- 4.2, destination `MD`. -/
theorem test_exec_destMD :
    regs (exec (.destMD .addr 0b011111#6 .null) (at' 0 3 7 [(3, 0x55), (8, 0x66)] 0)) = some (1, 3, 8, 85) ∧
    ramOf (exec (.destMD .addr 0b011111#6 .null) (at' 0 3 7 [(3, 0x55), (8, 0x66)] 0)) = some [(3, 8), (8, 0x66)] := by decide

/-- 4.2, destination `A`. -/
theorem test_exec_destA :
    regs (exec (.destA .addr 0b011111#6 .null) (at' 0 3 7 [(3, 0x55), (8, 0x66)] 0)) = some (1, 8, 7, 85) ∧
    ramOf (exec (.destA .addr 0b011111#6 .null) (at' 0 3 7 [(3, 0x55), (8, 0x66)] 0)) = some [(3, 0x55), (8, 0x66)] := by decide

/-- 4.2, destination `AM`. -/
theorem test_exec_destAM :
    regs (exec (.destAM .addr 0b011111#6 .null) (at' 0 3 7 [(3, 0x55), (8, 0x66)] 0)) = some (1, 8, 7, 85) ∧
    ramOf (exec (.destAM .addr 0b011111#6 .null) (at' 0 3 7 [(3, 0x55), (8, 0x66)] 0)) = some [(3, 8), (8, 0x66)] := by decide

/-- 4.2, destination `AD`. -/
theorem test_exec_destAD :
    regs (exec (.destAD .addr 0b011111#6 .null) (at' 0 3 7 [(3, 0x55), (8, 0x66)] 0)) = some (1, 8, 8, 85) ∧
    ramOf (exec (.destAD .addr 0b011111#6 .null) (at' 0 3 7 [(3, 0x55), (8, 0x66)] 0)) = some [(3, 0x55), (8, 0x66)] := by decide

/-- 4.2, destination `AMD`. -/
theorem test_exec_destAMD :
    regs (exec (.destAMD .addr 0b011111#6 .null) (at' 0 3 7 [(3, 0x55), (8, 0x66)] 0)) = some (1, 8, 8, 85) ∧
    ramOf (exec (.destAMD .addr 0b011111#6 .null) (at' 0 3 7 [(3, 0x55), (8, 0x66)] 0)) = some [(3, 8), (8, 0x66)] := by decide

/-- 4.3, jump `null` against every class of result. -/
theorem test_exec_jumpNull :
    ([0, 1, 0x7FFF, 0x8000, 0xFFFF].map fun d => regs (exec (.jumpNull .addr 0b001100#6 .null) (at' 5 100 d [] 0))) =
      [some (6, 100, 0, 0), some (6, 100, 1, 0), some (6, 100, 0x7FFF, 0), some (6, 100, 0x8000, 0), some (6, 100, 0xFFFF, 0)] := by decide

/-- 4.3, jump `JGT` against every class of result. -/
theorem test_exec_jumpJGT :
    ([0, 1, 0x7FFF, 0x8000, 0xFFFF].map fun d => regs (exec (.jumpJGT .addr 0b001100#6 .null) (at' 5 100 d [] 0))) =
      [some (6, 100, 0, 0), some (100, 100, 1, 0), some (100, 100, 0x7FFF, 0), some (6, 100, 0x8000, 0), some (6, 100, 0xFFFF, 0)] := by decide

/-- 4.3, jump `JEQ` against every class of result. -/
theorem test_exec_jumpJEQ :
    ([0, 1, 0x7FFF, 0x8000, 0xFFFF].map fun d => regs (exec (.jumpJEQ .addr 0b001100#6 .null) (at' 5 100 d [] 0))) =
      [some (100, 100, 0, 0), some (6, 100, 1, 0), some (6, 100, 0x7FFF, 0), some (6, 100, 0x8000, 0), some (6, 100, 0xFFFF, 0)] := by decide

/-- 4.3, jump `JGE` against every class of result. -/
theorem test_exec_jumpJGE :
    ([0, 1, 0x7FFF, 0x8000, 0xFFFF].map fun d => regs (exec (.jumpJGE .addr 0b001100#6 .null) (at' 5 100 d [] 0))) =
      [some (100, 100, 0, 0), some (100, 100, 1, 0), some (100, 100, 0x7FFF, 0), some (6, 100, 0x8000, 0), some (6, 100, 0xFFFF, 0)] := by decide

/-- 4.3, jump `JLT` against every class of result. -/
theorem test_exec_jumpJLT :
    ([0, 1, 0x7FFF, 0x8000, 0xFFFF].map fun d => regs (exec (.jumpJLT .addr 0b001100#6 .null) (at' 5 100 d [] 0))) =
      [some (6, 100, 0, 0), some (6, 100, 1, 0), some (6, 100, 0x7FFF, 0), some (100, 100, 0x8000, 0), some (100, 100, 0xFFFF, 0)] := by decide

/-- 4.3, jump `JNE` against every class of result. -/
theorem test_exec_jumpJNE :
    ([0, 1, 0x7FFF, 0x8000, 0xFFFF].map fun d => regs (exec (.jumpJNE .addr 0b001100#6 .null) (at' 5 100 d [] 0))) =
      [some (6, 100, 0, 0), some (100, 100, 1, 0), some (100, 100, 0x7FFF, 0), some (100, 100, 0x8000, 0), some (100, 100, 0xFFFF, 0)] := by decide

/-- 4.3, jump `JLE` against every class of result. -/
theorem test_exec_jumpJLE :
    ([0, 1, 0x7FFF, 0x8000, 0xFFFF].map fun d => regs (exec (.jumpJLE .addr 0b001100#6 .null) (at' 5 100 d [] 0))) =
      [some (100, 100, 0, 0), some (6, 100, 1, 0), some (6, 100, 0x7FFF, 0), some (100, 100, 0x8000, 0), some (100, 100, 0xFFFF, 0)] := by decide

/-- 4.3, jump `JMP` against every class of result. -/
theorem test_exec_jumpJMP :
    ([0, 1, 0x7FFF, 0x8000, 0xFFFF].map fun d => regs (exec (.jumpJMP .addr 0b001100#6 .null) (at' 5 100 d [] 0))) =
      [some (100, 100, 0, 0), some (100, 100, 1, 0), some (100, 100, 0x7FFF, 0), some (100, 100, 0x8000, 0), some (100, 100, 0xFFFF, 0)] := by decide

/-- C2, C3: the store goes to the old `A`, the jump to the old `A`. -/
theorem test_step_ordering :
    ramOf (step (at' 0 0 0 [(0, 0x100), (255, 0xAAA), (256, 0xBBB)] 0xFCA8)) = some [(0, 0xFF), (255, 0xAAA), (256, 0xBBB)] ∧
    regs (step (at' 4 10 20 [] 0xE327)) = some (10, 20, 20, 0) := by decide

/-- C5: a store of zero removes the cell, and the latch keeps the old word. -/
theorem test_step_store_zero : ramOf (step (at' 0 9 0 [(9, 0xFFFF)] 0xFDC8)) = some [] ∧
    regs (step (at' 0 9 0 [(9, 0xFFFF)] 0xFDC8)) = some (1, 9, 0, 65535) := by decide

/-- C6, C7, C8, C8a: notifications at the edges of the screen range. -/
theorem test_tick_notes : tickNotes (at' 0 16384 0 [] 0xEE88) = [⟨16384, 0xFFFF⟩] ∧
    tickNotes (at' 0 24575 0 [(24575, 0xF0)] 0xFC08) = [⟨24575, 0xF0⟩] ∧ tickNotes (at' 0 24577 0 [] 0xEE88) = [] ∧
    tickNotes (at' 0 16383 0 [] 0xEE88) = [] := by decide

/-- C9, C9a, F6, F7, F8: the keyboard store and the order of the guards. -/
theorem test_step_faults : faultOf (step (at' 0 24576 0 [(24576, 0x41)] 0xEFC8)) = some (.keyboardStore 0x6000) ∧
    faultOf (step (at' 0 24576 3 [(24576, 0x41)] 0xEFF8)) = some (.keyboardStore 0x6000) ∧
    faultOf (step (at' 32768 24576 0 [] 0xEFC8)) = some (.outOfRange .rom 0x8000) ∧
    faultOf (step (at' 32767 24576 0 [] 0xEFC8)) = some (.keyboardStore 0x6000) ∧
    faultOf (step (at' 32768 40000 0 [] 0xE7D0)) = some (.outOfRange .ram 0x9C40) := by decide

/-- A4, A5, C14, C14a: the ends of ROM and RAM. -/
theorem test_step_ends : faultOf (step (at' 32767 0 0 [] 0x0001)) = some (.outOfRange .rom 0x8000) ∧
    faultOf (step (at' 4 32768 0 [] 0x0001)) = some (.outOfRange .ram 0x8000) ∧
    faultOf (step (at' 32767 0 0 [] 0xE7D0)) = some (.outOfRange .rom 0x8000) ∧
    regs (step (at' 32767 32767 0 [] 0xEA87)) = some (32767, 32767, 0, 0) := by decide

/-- `withFetchWord` puts the word where the first step after reset fetches. -/
theorem test_withFetchWord : regs (step (State.reset.withFetchWord 16 0xEFD0)) = some (1, 0, 1, 0) := by decide

/-! ### The host's calls -/

/-- L1: the load. -/
theorem test_load : (replyState (call (.loadProgram ["1110111111001000".toList, "0000000000000101".toList])
    { State.reset with rom := [(0, 5)] })).map (fun t => t.rom) = some [(0, 0xEFC8), (1, 5)] := by decide

/-- L2, L4: a short line and a bad character, the only error of each text. -/
theorem test_load_errors : badLines 0 ["0000000000000001".toList, "000000000000001".toList] = [.line 1] ∧
    badLines 0 ["000000000000000x".toList] = [.line 0] := by decide

/-- L9, L10: host writes at the edges of the screen range and at the keyboard register. -/
theorem test_write_memory : replyNotes (call (.writeMemory 16384 0xFFFF) State.reset) = some [⟨16384, 0xFFFF⟩] ∧
    replyNotes (call (.writeMemory 24575 1) State.reset) = some [⟨24575, 1⟩] ∧
    replyNotes (call (.writeMemory 24576 1) State.reset) = some [] ∧
    replyNotes (call (.writeMemory 16383 1) State.reset) = some [] := by decide

/-- L11: addresses outside RAM. -/
theorem test_host_faults : callFault (call (.readMemory 32768) State.reset) = some (.outOfRange .ram 32768) ∧
    callFault (call (.writeMemory 65535 1) State.reset) = some (.outOfRange .ram 65535) := by decide

/-- L12, L13: a key is read back by the host and by a program. -/
theorem test_key : replyValue (call (.readMemory 24576) (afterCall (.injectKey 65) State.reset)) = some 0x41 ∧
    regs (step (afterCall (.injectKey 65) (at' 0 24576 0 [] 0xFC10))) = some (1, 24576, 65, 65) := by decide

/-- L8: reset. -/
theorem test_host_reset : replyState (call .reset ⟨9, 3, 4, 1, [(3, 1), (16384, 0xFFFF)], [(0, 5)]⟩) =
    some ⟨0, 0, 0, 0, [], [(0, 5)]⟩ := by decide

/-- R232, R233: the text of an observation is the disassembly of the word that ran. -/
theorem test_on_step : (onStep (at' 0 5 0 [] 0xEFC8)).map (fun e => e.text) = some "M=1" := rfl
/-! ### Witnesses: for every statement with hypotheses, states and operands that meet them, at the edges of their ranges -/

/-- At the last address of RAM and the last but one of ROM. -/
def edge (w : Word) : State := at' 32766 32767 7 [(32767, 5)] w

theorem witness_DecodeEncodeRoundTrip : (Instr.atValue 32767#15).wf = true ∧ (Instr.compDOrM .AMD .JMP).wf = true ∧
    (Instr.compute .mem 0b111110#6 .AMD .JNE).wf = true ∧ (Instr.destAMD .mem 0b000001#6 .null).wf = true ∧
    (Instr.jumpJMP .addr 0b111110#6 .null).wf = true := by decide

theorem witness_UnusedBitsAreIgnored : (0x8090#16).getLsbD 15 = true ∧ 0x8090#16 &&& 0x9FFF#16 = 0xE090#16 &&& 0x9FFF#16 ∧
    0x8090#16 ≠ 0xE090#16 := by decide

theorem witness_ZeroedOperandIsIndependent : (0b101010#6).getLsbD 5 = true ∧ (0b101010#6).getLsbD 3 = true ∧
    config.ramSize ≤ (32768#16).toNat ∧ config.ramSize ≤ (65535#16).toNat := by decide

theorem witness_AddressInstruction : ((edge 0).a.toNat < config.ramSize ∧ (edge 0).pc.toNat + 1 < config.romSize) ∧
    config.ramSize ≤ (at' 0 32768 0 [] 0).a.toNat ∧
    ((at' 32767 0 0 [] 0).a.toNat < config.ramSize ∧ config.romSize ≤ (at' 32767 0 0 [] 0).pc.toNat + 1) := by decide

/-- What `Accepts` asks, met with and without a store, with and without a taken jump, at the edges of both memories. -/
theorem witness_accepts : Accepts (edge 0) false false ∧ Accepts (edge 0) true false ∧ Accepts (edge 0) false true ∧
    Accepts (edge 0) true true ∧ Accepts (at' 32767 24575 0 [] 0) true true ∧ Accepts (at' 0 24577 0 [] 0) true false ∧
    Accepts (at' 0 24576 0 [] 0) false false := by
  unfold Accepts
  decide

/-- Every instruction completes wherever nothing is out of range: a computation with each way a tick can end. -/
theorem witness_ComputeInstruction : Accepts (edge 0) (storesTo .AMD)
      (jumps .JMP (alu (edge 0).d (secondOperand (edge 0) .mem) 0b000010#6).out) ∧
    Accepts (edge 0) (storesTo .null) (jumps .JEQ (alu (edge 0).d (secondOperand (edge 0) .addr) 0b001100#6).out) := by
  unfold Accepts
  decide

/-- Each pattern of R162 to R189 is met by a word with every destination and jump bit set. -/
theorem witness_computation_words : [0x8A80#16, 0x8FC0#16, 0x8E80#16, 0x8300#16, 0x8C00#16, 0x8340#16, 0x8C40#16,
    0x83C0#16, 0x8CC0#16, 0x87C0#16, 0x8DC0#16, 0x8380#16, 0x8C80#16, 0x8080#16, 0x84C0#16, 0x81C0#16, 0x8000#16, 0x8540#16,
    0x9C00#16, 0x9C40#16, 0x9CC0#16, 0x9DC0#16, 0x9C80#16, 0x9080#16, 0x94C0#16, 0x91C0#16, 0x9000#16, 0x9540#16].all
    (fun p => decide ((p ||| 0x603F#16) &&& 0x9FC0#16 = p)) = true := by decide

/-- The results of a computation row meet `Accepts` at an edge, taken or not. -/
theorem witness_ConstantsCopiesAndNegations : Accepts (edge 0) (storesTo .AMD) (jumps .JEQ (0#16)) ∧
    Accepts (edge 0) (storesTo .M) (jumps .JGT (0#16)) ∧ Accepts (edge 0) (storesTo .D) (jumps .JLT (~~~(edge 0).d)) := by
  unfold Accepts
  decide

theorem witness_ArithmeticOverRegisters : Accepts (edge 0) (storesTo .AMD) (jumps .JGT ((edge 0).d + (edge 0).a)) ∧
    Accepts (edge 0) (storesTo .A) (jumps .JLE ((edge 0).d - 1#16)) := by
  unfold Accepts
  decide

theorem witness_ArithmeticOverMemory : Accepts (edge 0) (storesTo .MD) (jumps .JGE (ramAtA (edge 0) - 1#16)) ∧
    Accepts (edge 0) (storesTo .AD) (jumps .JNE ((edge 0).d - ramAtA (edge 0))) := by
  unfold Accepts
  decide

theorem witness_DestinationRows :
    Accepts (edge 0) false (jumps .null (alu (edge 0).d (secondOperand (edge 0) .addr) 0b010111#6).out) ∧
    Accepts (edge 0) true (jumps .JMP (alu (edge 0).d (secondOperand (edge 0) .mem) 0b010111#6).out) := by
  unfold Accepts
  decide

/-- `D` with a positive, a zero and a negative result, and with each the accepted states of both cases. -/
theorem witness_JumpRows : [1#16, 0x7FFF#16].all (fun v => decide (0 < v.toInt ∧ 0 ≤ v.toInt ∧ v.toInt ≠ 0 ∧
      ¬v.toInt ≤ 0 ∧ ¬v.toInt < 0)) = true ∧
    ((0#16).toInt = 0 ∧ 0 ≤ (0#16).toInt ∧ (0#16).toInt ≤ 0 ∧ ¬0 < (0#16).toInt ∧ ¬(0#16).toInt ≠ 0 ∧ ¬(0#16).toInt < 0) ∧
    [0x8000#16, 0xFFFF#16].all (fun v => decide (v.toInt < 0 ∧ v.toInt ≤ 0 ∧ v.toInt ≠ 0 ∧ ¬0 ≤ v.toInt ∧
      ¬0 < v.toInt)) = true ∧
    [0#16, 1#16, 0x7FFF#16, 0x8000#16, 0xFFFF#16].all (fun v =>
      decide ((alu v (secondOperand (at' 5 100 v [] 0) .addr) 0b001100#6).out = v ∧
        (at' 5 100 v [] 0).a.toNat < config.romSize ∧ (at' 5 100 v [] 0).pc.toNat + 1 < config.romSize)) = true := by
  decide

theorem witness_SourceJumpExample : (at' 3 20 0 [] 0).a.toNat < config.ramSize ∧ (at' 3 20 0 [] 0).d = 0#16 ∧
    (at' 3 20 1 [] 0).d = 1#16 ∧ (at' 32766 32767 1 [] 0).pc.toNat + 1 < config.romSize := by decide

theorem witness_ComputeFrame : (∃ t, exec (.compMMinus1 .AM .null) (edge 0) = .next t) ∧
    (∃ t, exec (.destNull .addr 0b010111#6 .null) (edge 0) = .next t) ∧
    (∃ t, exec (.jumpJMP .mem 0b010111#6 .AD) (edge 0) = .next t) ∧
    (∃ t, exec (.compute .mem 0b111110#6 .MD .JNE) (edge 0) = .next t) ∧
    ∃ t, exec (.compD .D .null) (edge 0) = .next t := ⟨⟨_, rfl⟩, ⟨_, rfl⟩, ⟨_, rfl⟩, ⟨_, rfl⟩, ⟨_, rfl⟩⟩

theorem witness_AddressFrame : ∃ t, exec (.atValue 32767#15) (edge 0) = .next t := ⟨_, rfl⟩

theorem witness_OrderingContract :
    ((at' 0 3 7 [] 0).d = 7#16 ∧ (at' 0 3 7 [] 0).a = 3#16 ∧ (at' 0 3 7 [] 0).pc.toNat + 1 < config.romSize) ∧
    ((at' 4 10 20 [] 0).d = 20#16 ∧ (at' 4 10 20 [] 0).a = 10#16) ∧
    ((edge 0).d = 7#16 ∧ ramAtA (edge 0) = 5#16 ∧ (edge 0).a.toNat < config.ramSize ∧
      (edge 0).a.toNat ≠ config.kbdAddr ∧ (edge 0).pc.toNat + 1 < config.romSize) ∧
    (at' 0 3 2 [] 0).d = 2#16 ∧ (at' 0 3 2 [] 0).a = 3#16 ∧ (at' 0 3 2 [] 0).pc.toNat + 1 < config.romSize := by decide

theorem witness_CanonicalOrderAgrees : ∃ t, exec (.compute .mem 0b110010#6 .AMD .null) (edge 0) = .next t := ⟨_, rfl⟩

theorem witness_JumpTargetIsTheOldA :
    (Instr.compD .A .JMP).fields = .compute .addr 0b001100#6 .A .JMP ∧ writesA .A = true ∧
    jumps .JMP (alu (at' 4 10 20 [] 0).d (secondOperand (at' 4 10 20 [] 0) .addr) 0b001100#6).out = true ∧
    ∃ t, exec (.compD .A .JMP) (at' 4 10 20 [] 0) = .next t := ⟨rfl, rfl, rfl, _, rfl⟩

theorem witness_StepRunsTheDecodedInstruction : (edge 0xEFC8).a.toNat < config.ramSize ∧
    (edge 0xEFC8).pc.toNat < config.romSize := by decide

theorem witness_RamGuardRejectsEveryInstruction : config.ramSize ≤ (at' 0 32768 0 [] 0).a.toNat ∧
    config.ramSize ≤ (at' 0 65535 0 [] 0).a.toNat := by decide

theorem witness_FetchGuard : (at' 32768 32767 0 [] 0).a.toNat < config.ramSize ∧
    config.romSize ≤ (at' 32768 32767 0 [] 0).pc.toNat ∧ Reachable State.reset := ⟨by decide, by decide, [], rfl⟩

/-- Each clause: the guard fires at the last ROM word, a step completes just before it, and the fault is reported. -/
theorem witness_NextPcGuard :
    ((at' 32767 0 0 [] 0xE7D0).a.toNat < config.ramSize ∧ (at' 32767 0 0 [] 0xE7D0).pc.toNat < config.romSize ∧
      ¬(refStores (at' 32767 0 0 [] 0xE7D0) = true ∧ (at' 32767 0 0 [] 0xE7D0).a.toNat = config.kbdAddr) ∧
      config.romSize ≤ refNext (at' 32767 0 0 [] 0xE7D0)) ∧
    (∃ t, step (at' 32766 0 0 [] 0xE7D0) = .next t) ∧
    step (at' 32767 0 0 [] 0xE7D0) = .fault (.outOfRange .rom 32768) := ⟨by decide, ⟨_, rfl⟩, rfl⟩

theorem witness_KeyboardStoreIsRejected : (Instr.comp1 .AMD .null).fields = .compute .addr 0b111111#6 .AMD .null ∧
    storesTo .AMD = true ∧ (at' 0 24576 3 [] 0).a.toNat = config.kbdAddr ∧
    ∃ t, step (at' 0 24575 0 [] 0xEFC8) = .next t := ⟨rfl, rfl, rfl, _, rfl⟩

/-- One state for each of the four guards, and it passes the guards before its own. -/
theorem witness_GuardOrder : config.ramSize ≤ (at' 32768 32768 0 [] 0xEFC8).a.toNat ∧
    ((at' 32768 24576 0 [] 0xEFC8).a.toNat < config.ramSize ∧ config.romSize ≤ (at' 32768 24576 0 [] 0xEFC8).pc.toNat) ∧
    ((at' 32767 24576 0 [] 0xEFC8).pc.toNat < config.romSize ∧ refStores (at' 32767 24576 0 [] 0xEFC8) = true ∧
      (at' 32767 24576 0 [] 0xEFC8).a.toNat = config.kbdAddr) ∧
    refStores (at' 32767 24575 0 [] 0xEFC8) = true ∧ (at' 32767 24575 0 [] 0xEFC8).a.toNat ≠ config.kbdAddr ∧
      config.romSize ≤ refNext (at' 32767 24575 0 [] 0xEFC8) := by decide

theorem witness_AddressOutsideRamFaultsTheNextTick : ∃ t, step (at' 0 0 0 [] 0xEEA0) = .next t ∧
    config.ramSize ≤ t.a.toNat := ⟨_, rfl, by decide⟩

theorem witness_LatchHoldsTheOldWord : (∃ t, exec (.atValue 5#15) (at' 0 0 0 [] 0) = .next t ∧ ∃ u, step t = .next u) ∧
    (at' 0 0 0 [] 0).a = 0#16 ∧ ∃ r, call (.writeMemory 24576 1) (edge 0) = .next r :=
  ⟨⟨_, rfl, _, rfl⟩, rfl, _, rfl⟩

theorem witness_OneRamWordIsRead : Memory.get [(3, 9), (32767, 5)] (edge 0).a.toNat =
    Memory.get (edge 0).ram (edge 0).a.toNat := by decide

theorem witness_OneRamWordIsWritten : (∃ t, step (edge 0xEFC8) = .next t) ∧ refStores (edge 0xEFC8) = true ∧
    (∃ t, step (edge 0x7FFF) = .next t) ∧ refStores (edge 0x7FFF) = false := ⟨⟨_, rfl⟩, rfl, ⟨_, rfl⟩, rfl⟩

theorem witness_TickNotifications : (∃ p, tick (at' 0 24575 0 [] 0xEFC8) = .next p) ∧
    (refStores (at' 0 24575 0 [] 0xEFC8) = true ∧ config.screenBase ≤ (at' 0 24575 0 [] 0xEFC8).a.toNat ∧
      (at' 0 24575 0 [] 0xEFC8).a.toNat < config.screenBase + config.screenLen) ∧
    (∃ p, tick (at' 0 16383 0 [] 0xEFC8) = .next p) ∧ ¬config.screenBase ≤ (at' 0 16383 0 [] 0xEFC8).a.toNat :=
  ⟨⟨_, rfl⟩, by decide, ⟨_, rfl⟩, by decide⟩

theorem witness_SelfJumpRepeats : (at' 32767 32767 0 [] 0xEA87).a.toNat < config.ramSize ∧
    (at' 32767 32767 0 [] 0xEA87).pc = (at' 32767 32767 0 [] 0xEA87).a ∧
    Memory.get (at' 32767 32767 0 [] 0xEA87).rom (at' 32767 32767 0 [] 0xEA87).pc.toNat = 0xEA87#16 := by decide

/-- A state that is not the one after construct meets the invariant, and its step completes. -/
theorem witness_StepKeepsTheInvariant : StateInv (edge 0xEFC8) ∧ ∃ t, step (edge 0xEFC8) = .next t :=
  ⟨⟨by decide, by decide, by decide, by decide, by decide⟩, _, rfl⟩

theorem witness_HostCallKeepsTheInvariant : StateInv (edge 0xEFC8) :=
  ⟨by decide, by decide, by decide, by decide, by decide⟩

theorem witness_ReachableStatesMeetTheInvariant :
    Reachable (session [.loadProgram ["1110111111001000".toList], .tick, .injectKey 65] State.reset).1 := ⟨_, rfl⟩

theorem witness_EqualWordsAreEqualMemories : Memory.wf (Memory.set [(3, 1)] 7 2) = true ∧
    Memory.wf (Memory.set [(7, 2)] 3 1) = true ∧
    ∀ k, Memory.get (Memory.set [(3, 1)] 7 2) k = Memory.get (Memory.set [(7, 2)] 3 1) k :=
  ⟨by decide, by decide, fun _ => rfl⟩

theorem witness_ZeroRomRunsToTheEnd : 32767 < config.romSize := by decide

theorem witness_RejectionChangesNothing : call .tick (at' 0 32768 0 [] 0) = .fault (.outOfRange .ram 32768) ∧
    call (.readMemory 32768) State.reset = .fault (.outOfRange .ram 32768) := ⟨rfl, rfl⟩

theorem witness_FaultIsPermanent : step (at' 0 24576 0 [] 0xEFC8) = .fault (.keyboardStore 24576) ∧
    config.ramSize ≤ (at' 0 32768 0 [] 0).a.toNat ∧
    ∀ c ∈ [HostCall.loadProgram [], .tick, .readMemory 0, .writeMemory 0 1, .injectKey 2, .clearKey],
      keepsMachine c = true := ⟨rfl, by decide, by decide⟩

/-- Both clauses, the second for either reason: a text with a bad line, and one line more than ROM holds. -/
theorem witness_LoadProgramAllOrNothing :
    ([("1110111111001000").toList].length ≤ config.romSize ∧ ∀ l ∈ [("1110111111001000").toList], LineOk l) ∧
    ¬([("000000000000000").toList].length ≤ config.romSize ∧ ∀ l ∈ [("000000000000000").toList], LineOk l) ∧
    ¬((List.replicate 32769 ("0000000000000000").toList).length ≤ config.romSize ∧
      ∀ l ∈ List.replicate 32769 ("0000000000000000").toList, LineOk l) := by
  refine ⟨⟨by decide, fun l hl => ?_⟩, fun h => ?_, fun h => ?_⟩
  · rw [List.mem_singleton.mp hl]
    exact lineOk_iff.mp (by decide)
  · exact absurd (lineOk_iff.mpr (h.2 _ (List.mem_singleton.mpr rfl))) (by decide)
  · have hl := h.1
    rw [List.length_replicate] at hl
    exact absurd hl (by decide)

theorem witness_LoadTakesEffectAtTheNextTick : (∃ t, loadProgram ["1110111111001000".toList] State.reset = .ok t) ∧
    State.reset.a.toNat < config.ramSize ∧ State.reset.pc.toNat < config.romSize := ⟨⟨_, rfl⟩, by decide, by decide⟩

theorem witness_HostReadsMemory : (32767#16).toNat < config.ramSize ∧ config.ramSize ≤ (32768#16).toNat := by decide

theorem witness_HostWritesMemory : (24576#16).toNat < config.ramSize ∧ (32767#16).toNat < config.ramSize ∧
    config.ramSize ≤ (32768#16).toNat := by decide

theorem witness_KeyInjection : (at' 32766 24576 0 [] 0xFC10).a.toNat = config.kbdAddr ∧
    (at' 32766 24576 0 [] 0xFC10).pc.toNat + 1 < config.romSize := by decide

theorem witness_OnlyTheHostWritesTheKeyboard :
    ∀ c ∈ [HostCall.tick, .writeMemory 24575 1, .writeMemory 24577 1, .readMemory 24576, .loadProgram []],
      keepsKeyboard c = true := by decide

theorem witness_NotificationsMirrorTheScreen :
    (∀ c ∈ [HostCall.tick, .writeMemory 16384 1, .injectKey 1], keepsMachine c = true) ∧
    (config.screenBase ≤ 16384 ∧ 16384 < config.screenBase + config.screenLen) ∧
    config.screenBase ≤ 24575 ∧ 24575 < config.screenBase + config.screenLen := by decide

theorem witness_EachStepKeepsTheDisplayTrue : Shows (fun k => Memory.get (at' 0 24575 0 [] 0xEFC8).ram k)
      (at' 0 24575 0 [] 0xEFC8) ∧ (∃ t, step (at' 0 24575 0 [] 0xEFC8) = .next t) ∧
    keepsMachine (.writeMemory 16384 1) = true := ⟨fun _ _ _ => rfl, ⟨_, rfl⟩, rfl⟩

/-- `D;JMP` on the last word of ROM, a self-jump that writes nothing, and `MD=D+1;JMP` at the last screen word. -/
theorem witness_TakenSelfJumpsStayInPlace : ((at' 32767 32767 5 [] 0xE307).a.toNat < config.ramSize ∧
      (at' 32767 32767 5 [] 0xE307).pc = (at' 32767 32767 5 [] 0xE307).a ∧
      (decode (Memory.get (at' 32767 32767 5 [] 0xE307).rom 32767)).fields = .compute .addr 0b001100#6 .null .JMP ∧
      jumps .JMP (alu 5 32767 0b001100#6).out = true) ∧
    (at' 24575 24575 5 [] 0xE7DF).a.toNat ≠ config.kbdAddr ∧
    (decode (Memory.get (at' 24575 24575 5 [] 0xE7DF).rom 24575)).fields = .compute .addr 0b011111#6 .MD .JMP := by decide

end Sys2Proof.Tests
end

section
/-! PROOFS of the family 10_state: the state invariant, the latch, construct and reset. -/

namespace Sys2Proof.Machine

/-! ### What an accepted tick commits -/

/-- An accepted instruction passed the RAM guard and the next-PC guard, and committed some writes with the old `RAM[A0]` as the
latch (41_cycle_step R130). -/
theorem exec_next_commit {i : Instr} {s t : State} (h : exec i s = .next t) :
    s.a.toNat < config.ramSize ∧
      ∃ w : Writes, w.next < config.romSize ∧ t = commit s (Memory.get s.ram s.a.toNat) w := by
  obtain ⟨w, hw, -⟩ := exec_eq_tickWith i s
  obtain ⟨ha, -, hnext, ht⟩ := tickWith_next_iff.mp (hw ▸ h)
  exact ⟨ha, _, hnext, ht⟩

/-- The same of a tick: its instruction is an accepted one. -/
theorem step_next_commit {s t : State} (h : step s = .next t) :
    s.a.toNat < config.ramSize ∧
      ∃ w : Writes, w.next < config.romSize ∧ t = commit s (Memory.get s.ram s.a.toNat) w := by
  obtain ⟨i, -, hexec⟩ := step_next_iff.mp h
  exact exec_next_commit hexec

/-! ### What keeps the invariant -/

/-- The invariant speaks of RAM by itself, so a RAM write at an existing address keeps it (20_memory R45, R51). -/
theorem StateInv.after_setRam {s : State} (hs : StateInv s) {k : Nat} (hk : k < config.ramSize) (v : Word) :
    StateInv { s with ram := Memory.set s.ram k v } where
  pc_lt := hs.pc_lt
  ram_wf := Memory.wf_set k v hs.ram_wf
  ram_within := Memory.within_set v hk hs.ram_within
  rom_wf := hs.rom_wf
  rom_within := hs.rom_within

/-- The program counter that passed the next-PC guard is inside ROM: nothing is lost when it becomes a word (R136). -/
theorem ofNat_next_lt_romSize {n : Nat} (h : n < config.romSize) : (BitVec.ofNat 16 n).toNat < config.romSize := by
  rw [BitVec.toNat_ofNat]
  exact Nat.lt_of_le_of_lt (Nat.mod_le _ _) h

/-- The commit of a tick that passed its guards keeps the invariant. -/
theorem StateInv.after_commit {s : State} (hs : StateInv s) (ha : s.a.toNat < config.ramSize) (m : Word) {w : Writes}
    (hnext : w.next < config.romSize) : StateInv (commit s m w) := by
  have hram : Memory.wf (commit s m w).ram = true ∧
      Memory.within (commit s m w).ram config.ramSize = true := by
    cases hmem : w.mem with
    | none => rw [commit_ram_none s m w hmem]; exact ⟨hs.ram_wf, hs.ram_within⟩
    | some v =>
      rw [commit_ram_some s m w hmem]
      exact ⟨(hs.after_setRam ha v).ram_wf, (hs.after_setRam ha v).ram_within⟩
  exact ⟨ofNat_next_lt_romSize hnext, hram.1, hram.2, hs.rom_wf, hs.rom_within⟩

/-- Every accepted tick keeps the invariant (10_state R24). -/
theorem StateInv.after_step {s t : State} (hs : StateInv s) (h : step s = .next t) : StateInv t := by
  obtain ⟨ha, w, hnext, rfl⟩ := step_next_commit h
  exact hs.after_commit ha _ hnext

/-- The state after construct meets the invariant (R31, R32). -/
theorem stateInv_reset : StateInv State.reset where
  pc_lt := by decide
  ram_wf := rfl
  ram_within := rfl
  rom_wf := rfl
  rom_within := rfl

/-- Reset keeps ROM, the only part of the invariant that the state after construct does not give (R224). -/
theorem StateInv.after_reset {s : State} (hs : StateInv s) : StateInv (resetMachine s) :=
  { stateInv_reset with rom_wf := hs.rom_wf, rom_within := hs.rom_within }

/-- An accepted load puts a canonical memory of at most `ROM_SIZE` words into ROM (45_host_interface R222). -/
theorem StateInv.after_load {s t : State} (hs : StateInv s) {lines : List Line}
    (h : loadProgram lines s = .ok t) : StateInv t := by
  obtain ⟨hok, rfl⟩ := loadProgram_ok_iff.mp h
  have hlen : lines.length ≤ config.romSize := (loadErrors_eq_nil_iff.mp hok).1
  refine { hs with rom_wf := Memory.wf_memoryOf _ 0, rom_within := (Memory.within_iff _ _).mpr fun c hc => ?_ }
  have hlt := Memory.memoryOf_lt _ 0 c hc
  rw [List.length_map] at hlt
  omega

/-- An accepted host write keeps the invariant (45_host_interface R227). -/
theorem StateInv.after_memWrite {s : State} (hs : StateInv s) {addr v : Word} {p : State × List Note}
    (h : memWrite s addr v = .ok p) : StateInv p.1 := by
  obtain ⟨haddr, rfl⟩ := memWrite_ok_iff.mp h
  exact hs.after_setRam haddr v

/-! ### The host's calls -/

/-- A host write is answered when the memory accepts it, with the state it leaves. -/
theorem writeReply_next_iff {e : Except Fault (State × List Note)} {r : Reply} :
    writeReply e = .next r ↔ ∃ p, e = .ok p ∧ r = ⟨p.1, none, p.2⟩ := by
  cases e <;> simp [writeReply, eq_comm]

/-! A host write and the two keyboard calls are one operation at three addresses and values (R227, R229). -/

theorem call_writeMemory (addr value : Word) (s : State) :
    call (.writeMemory addr value) s = writeReply (memWrite s addr value) := rfl

theorem call_injectKey (code : Word) (s : State) :
    call (.injectKey code) s = writeReply (memWrite s (BitVec.ofNat 16 config.kbdAddr) code) := rfl

theorem call_clearKey (s : State) :
    call .clearKey s = writeReply (memWrite s (BitVec.ofNat 16 config.kbdAddr) 0#16) := rfl

/-- An accepted tick as a host call is an accepted step (R225). -/
theorem call_tick_next_iff {s : State} {r : Reply} :
    call .tick s = .next r ↔ step s = .next r.state ∧ r.value = none ∧ r.notes = tickNotes s := by
  obtain ⟨t, v, n⟩ := r
  dsimp only [call, tick]
  cases step s <;> simp [eq_comm]

/-- An accepted load leaves the loaded state (R222). -/
theorem call_loadProgram_next_iff {lines : List Line} {s : State} {r : Reply} :
    call (.loadProgram lines) s = .next r ↔ ∃ t, loadProgram lines s = .ok t ∧ r = ⟨t, none, []⟩ := by
  dsimp only [call]
  cases loadProgram lines s <;> simp [eq_comm]

/-- An accepted read leaves the state as it was (R226). -/
theorem call_readMemory_next_iff {addr : Word} {s : State} {r : Reply} :
    call (.readMemory addr) s = .next r ↔ ∃ v, memRead s addr = .ok v ∧ r = ⟨s, some v, []⟩ := by
  dsimp only [call]
  cases memRead s addr <;> simp [eq_comm]

theorem StateInv.after_writeReply {s : State} (hs : StateInv s) {addr v : Word} {r : Reply}
    (h : writeReply (memWrite s addr v) = .next r) : StateInv r.state := by
  obtain ⟨p, hp, rfl⟩ := writeReply_next_iff.mp h
  exact hs.after_memWrite hp

/-- Every accepted call keeps the invariant. -/
theorem StateInv.after_call {s : State} (hs : StateInv s) {c : HostCall} {r : Reply} (h : call c s = .next r) :
    StateInv r.state := by
  cases c with
  | construct => cases h; exact stateInv_reset
  | loadProgram lines =>
    obtain ⟨t, ht, rfl⟩ := call_loadProgram_next_iff.mp h
    exact hs.after_load ht
  | reset => cases h; exact hs.after_reset
  | tick => exact hs.after_step (call_tick_next_iff.mp h).1
  | readMemory addr =>
    obtain ⟨v, -, rfl⟩ := call_readMemory_next_iff.mp h
    exact hs
  | writeMemory addr value => exact hs.after_writeReply (call_writeMemory addr value s ▸ h)
  | injectKey code => exact hs.after_writeReply (call_injectKey code s ▸ h)
  | clearKey => exact hs.after_writeReply (call_clearKey s ▸ h)

/-- A property that every accepted call keeps holds of what any call leaves: a rejected call leaves the state it started
from (60_exceptions R252). -/
theorem afterCall_of_call_next {P : State → Prop} {c : HostCall} {s : State} (hs : P s)
    (hnext : ∀ r, call c s = .next r → P r.state) : P (afterCall c s) := by
  unfold afterCall
  split
  · next r h => exact hnext r h
  · exact hs
  · exact hs

/-- A property that every host call keeps holds after any list of them. -/
theorem session_induction {P : State → Prop} (hcall : ∀ c s, P s → P (afterCall c s)) (calls : List HostCall) :
    ∀ s, P s → P (session calls s).1 := by
  induction calls with
  | nil => exact fun _ hs => hs
  | cons c rest ih =>
    intro s hs
    rw [session_cons]
    exact ih _ (hcall c s hs)

/-! ### The stored latch is read by nothing (10_state R28) -/

theorem fetch_withMl (s : State) (x : Word) : fetch { s with ml := x } = fetch s := rfl

/-- The writes are computed from the word read in step 1, not from the stored latch, and the commit replaces the latch. -/
theorem runFields_withMl (f : Fields) (s : State) (x : Word) : runFields f { s with ml := x } = runFields f s := by
  cases f <;> rfl

theorem exec_withMl (i : Instr) (s : State) (x : Word) : exec i { s with ml := x } = exec i s := by
  rw [exec_eq_runFields, exec_eq_runFields, runFields_withMl]

theorem step_withMl (s : State) (x : Word) : step { s with ml := x } = step s := by
  unfold step
  rw [fetch_withMl]
  simp only [exec_withMl]

/-- A notification holds `A0` and the result, neither of them made from the stored latch. -/
theorem emits_withMl (i : Instr) (s : State) (x : Word) : emits i { s with ml := x } = emits i s := by
  unfold emits
  rw [exec_withMl]
  cases i.fields with
  | address v => rfl
  | compute y c d j => cases y <;> rfl

theorem tickNotes_withMl (s : State) (x : Word) : tickNotes { s with ml := x } = tickNotes s := by
  unfold tickNotes
  rw [fetch_withMl]
  simp only [emits_withMl]

/-! ### The latch after a tick (R27, R28) -/

theorem exec_next_ml {i : Instr} {s t : State} (h : exec i s = .next t) : t.ml = Memory.get s.ram s.a.toNat := by
  obtain ⟨-, w, -, rfl⟩ := exec_next_commit h
  rfl

theorem step_next_ml {s t : State} (h : step s = .next t) : t.ml = Memory.get s.ram s.a.toNat := by
  obtain ⟨i, -, hexec⟩ := step_next_iff.mp h
  exact exec_next_ml hexec

/-- An accepted `@value` leaves the value, with bit 15 zero, in `A` (42_address_instruction R150). -/
theorem exec_atValue_a {value : BitVec 15} {s t : State} (h : exec (.atValue value) s = .next t) :
    t.a = value.setWidth 16 := by
  rw [exec_eq_runFields] at h
  obtain ⟨-, -, -, rfl⟩ := tickWith_next_iff.mp h
  rfl

/-- A host write changes RAM alone, so not the latch (R28 d). -/
theorem memWrite_ok_ml {s : State} {addr v : Word} {p : State × List Note} (h : memWrite s addr v = .ok p) :
    p.1.ml = s.ml := by
  obtain ⟨-, rfl⟩ := memWrite_ok_iff.mp h
  rfl

end Sys2Proof.Machine

namespace Sys2Proof.Proofs

open Sys2Proof.Machine

/-- Settles O42: the two guards of an accepted tick bound the next program counter and the address of its store. -/
theorem stepKeepsTheInvariant : Obligations.StepKeepsTheInvariant := fun _ _ hs h => hs.after_step h

/-- Settles O41. -/
theorem resetMeetsTheInvariant : Obligations.ResetMeetsTheInvariant := stateInv_reset

/-- Settles O43: each accepted call keeps the invariant, and a rejected one leaves the state it started from. -/
theorem hostCallKeepsTheInvariant : Obligations.HostCallKeepsTheInvariant := fun _ _ hs =>
  afterCall_of_call_next hs fun _ h => hs.after_call h

/-- Settles O44, by induction on the list of calls. -/
theorem reachableStatesMeetTheInvariant : Obligations.ReachableStatesMeetTheInvariant := by
  rintro s ⟨calls, rfl⟩
  exact session_induction hostCallKeepsTheInvariant calls State.reset stateInv_reset

/-- Settles O34: the commit stores the word that step 1 read at the old `A`. -/
theorem latchHoldsTheOldWord : Obligations.LatchHoldsTheOldWord := by
  refine ⟨fun s t h => step_next_ml h, fun s t ha h => ⟨?_, fun u hu => ?_⟩, fun s addr v r h => ?_⟩
  · simpa [ha] using exec_next_ml h
  · simpa [exec_atValue_a h] using step_next_ml hu
  · obtain ⟨p, hp, rfl⟩ := writeReply_next_iff.mp h
    exact memWrite_ok_ml hp

/-- Settles O35: neither the step nor its notifications read the stored latch. -/
theorem latchNeverInfluences : Obligations.LatchNeverInfluences := fun s x =>
  ⟨step_withMl s x, tickNotes_withMl s x⟩

/-- Settles O46. -/
theorem constructAndResetZero : Obligations.ConstructAndResetZero := by
  refine ⟨⟨rfl, rfl, rfl, rfl, Memory.get_nil, Memory.get_nil⟩, fun s => ⟨rfl, ?_⟩⟩
  exact ⟨⟨resetMachine s, none, []⟩, rfl, rfl, rfl, rfl, rfl, Memory.get_nil, resetMachine_rom s⟩

/-- A second reset finds nothing to change: the first one kept ROM alone. -/
theorem resetMachine_resetMachine (s : State) : resetMachine (resetMachine s) = resetMachine s := rfl

/-- Settles O47. -/
theorem resetIsIdempotent : Obligations.ResetIsIdempotent := fun s =>
  ⟨congrArg (·, []) (resetMachine_resetMachine s), rfl⟩

end Sys2Proof.Proofs
end

section
/-! PROOFS of the family 20_memory: the one RAM word a tick reads and writes, ROM, the keyboard register, the screen mirror and
the canonical form. -/

namespace Sys2Proof.Machine

open Sys2Proof.Claims

/-! ### The fields of the fetched word, as the bits R130 reads -/

theorem writesM_eq_storesTo (d : Dest) : writesM d = storesTo d := by cases d <;> rfl

theorem writesM_ofBits (a d m : Bool) : writesM (Dest.ofBits a d m) = m := by
  cases a <;> cases d <;> cases m <;> rfl

/-- An address-instruction stores nothing (20_memory R58). -/
theorem refStores_of_address {s : State} {v : BitVec 15} (h : decodeFields (refWord s) = .address v) :
    refStores s = false := by
  unfold decodeFields at h
  split at h
  · cases h
  · next hbit => rw [refStores, Bool.eq_false_of_not_eq_true hbit, Bool.false_and]

/-- What a fetched compute-instruction stores, by its fields (30_encoding R62 to R66). -/
theorem refStores_refOut_of_compute {s : State} {y : Operand} {c : Code} {d : Dest} {j : Jump}
    (h : decodeFields (refWord s) = .compute y c d j) :
    refStores s = writesM d ∧ refOut s = aluOut s.d (yOperand s (ramAtA s) y) c := by
  unfold decodeFields at h
  split at h
  · next hbit =>
    obtain ⟨rfl, rfl, rfl, rfl⟩ := Fields.compute.inj h
    refine ⟨by rw [writesM_ofBits, refStores, hbit, Bool.true_and], ?_⟩
    have hy : yOperand s (ramAtA s) (Operand.ofBit ((refWord s).getLsbD 12)) =
        if (refWord s).getLsbD 12 then ramAtA s else s.a := by cases (refWord s).getLsbD 12 <;> rfl
    rw [hy]
    simp [refOut, refAlu, aluOut, combine, preset]
  · cases h

/-! ### What an accepted tick does to RAM, and what it notifies (20_memory R47, R49, R58) -/

theorem exec_address_next_ram {i : Instr} {v : BitVec 15} {s t : State} (hi : i.fields = .address v)
    (h : exec i s = .next t) : t.ram = s.ram ∧ emits i s = [] := by
  refine ⟨?_, by simp [emits, h, hi]⟩
  rw [exec_eq_runFields, hi] at h
  obtain ⟨-, -, -, rfl⟩ := tickWith_next_iff.mp h
  rfl

theorem exec_compute_next_ram {i : Instr} {y : Operand} {c : Code} {d : Dest} {j : Jump} {s t : State}
    (hi : i.fields = .compute y c d j) (h : exec i s = .next t) :
    let out := aluOut s.d (yOperand s (ramAtA s) y) c
    writesM d = false ∧ t.ram = s.ram ∧ emits i s = [] ∨
    writesM d = true ∧ s.a.toNat ≠ config.kbdAddr ∧ t.ram = Memory.set s.ram s.a.toNat out ∧
      emits i s = notify s.a out := by
  have hemits : emits i s =
      if writesM d then notify s.a (aluOut s.d (yOperand s (ramAtA s) y) c) else [] := by
    simp [emits, h, hi, ramAtA]
  rw [exec_eq_runFields, hi, runFields_compute] at h
  obtain ⟨-, hkbd, -, rfl⟩ := tickWith_next_iff.mp h
  cases hd : writesM d with
  | false => exact .inl ⟨rfl, commit_ram_none _ _ _ (by simp [computeWrites, selected, hd]), by simp [hemits, hd]⟩
  | true =>
    refine .inr ⟨rfl, fun hk => hkbd ⟨?_, isKeyboard_iff.mpr hk⟩, ?_, by simp [hemits, hd]⟩
    · rw [← hd]; exact selected_isSome _ _
    · exact commit_ram_some _ _ _ (by simp [computeWrites, selected, hd, alu, ramAtA])

/-- An accepted tick leaves RAM alone and notifies nothing, or stores its result at the old `A`, which is not the keyboard
register, and notifies that write. -/
theorem step_next_ram {s t : State} (h : step s = .next t) :
    refStores s = false ∧ t.ram = s.ram ∧ tickNotes s = [] ∨
    refStores s = true ∧ s.a.toNat ≠ config.kbdAddr ∧ t.ram = Memory.set s.ram s.a.toNat (refOut s) ∧
      tickNotes s = notify s.a (refOut s) := by
  obtain ⟨i, hfetch, hexec⟩ := step_next_iff.mp h
  have hnotes : tickNotes s = emits i s := by simp [tickNotes, hfetch]
  have hi : i.fields = decodeFields (refWord s) := by
    obtain ⟨-, -, rfl⟩ := fetch_ok_iff.mp hfetch
    exact decode_fields _
  rw [hnotes]
  cases hw : decodeFields (refWord s) with
  | address v => exact .inl ⟨refStores_of_address hw, exec_address_next_ram (hi.trans hw) hexec⟩
  | compute y c d j =>
    obtain ⟨hstores, hout⟩ := refStores_refOut_of_compute hw
    rw [hstores, hout]
    exact exec_compute_next_ram (hi.trans hw) hexec

theorem step_next_rom {s t : State} (h : step s = .next t) : t.rom = s.rom := by
  obtain ⟨-, w, -, rfl⟩ := step_next_commit h
  rfl

/-- A store to the keyboard register is rejected, whatever the rest of the instruction (20_memory R49). -/
theorem exec_keyboardStore {i : Instr} {y : Operand} {c : Code} {d : Dest} {j : Jump} {s : State}
    (hi : i.fields = .compute y c d j) (hd : writesM d = true) (ha : s.a.toNat = config.kbdAddr) :
    exec i s = .fault (.keyboardStore s.a.toNat) := by
  rw [exec_eq_runFields, hi, runFields_compute]
  refine tickWith_fault_iff.mpr (.inr (.inl ⟨?_, ?_, isKeyboard_iff.mpr ha, rfl⟩))
  · rw [ha]; decide
  · rw [← hd]; exact selected_isSome _ _

/-! ### What an instruction reads of the memories (20_memory R40, R50, R55) -/

theorem tickWith_withRom (s : State) (r : Memory) (w : Word → Writes) :
    tickWith { s with rom := r } w = mapNext (fun t => { t with rom := r }) (tickWith s w) := by
  have hread : memRead { s with rom := r } s.a = memRead s s.a := rfl
  unfold tickWith
  rw [hread]
  cases memRead s s.a with
  | error f => rfl
  | ok m =>
    dsimp only
    split
    · rfl
    · split <;> rfl

/-- No writes depend on ROM, so neither kind of instruction does. -/
theorem exec_withRom (i : Instr) (s : State) (r : Memory) :
    exec i { s with rom := r } = mapNext (fun t => { t with rom := r }) (exec i s) := by
  rw [exec_eq_runFields, exec_eq_runFields]
  cases i.fields <;> exact tickWith_withRom s r _

section
variable {s : State} {m : Memory} (h : Memory.get m s.a.toNat = Memory.get s.ram s.a.toNat)
include h

/-- Step 1 reads the same word, and RAM is in nothing else of the tick but the RAM it leaves. -/
theorem tickWith_withRam (w : Word → Writes) :
    mapNext (fun t => { t with ram := [] }) (tickWith { s with ram := m } w) =
      mapNext (fun t => { t with ram := [] }) (tickWith s w) := by
  have hread : memRead { s with ram := m } s.a = memRead s s.a := by
    unfold memRead
    rw [← h]
  unfold tickWith
  rw [hread]
  cases memRead s s.a with
  | error f => rfl
  | ok v =>
    dsimp only
    split
    · rfl
    · split <;> rfl

theorem exec_withRam (i : Instr) :
    mapNext (fun t => { t with ram := [] }) (exec i { s with ram := m }) =
      mapNext (fun t => { t with ram := [] }) (exec i s) := by
  rw [exec_eq_runFields, exec_eq_runFields]
  cases i.fields <;> exact tickWith_withRam h _

end

/-- The fetch tests the RAM guard and does not use the word read there. -/
theorem fetch_withRam (s : State) (m : Memory) : fetch { s with ram := m } = fetch s := by
  unfold fetch memRead
  by_cases ha : s.a.toNat < config.ramSize
  · simp only [ha, if_true]
    rfl
  · simp only [ha, if_false]

/-- Outcomes that agree up to a change of the next state are both accepted, or the same. -/
theorem mapNext_eq_cases {f : State → State} {x y : Result} (h : mapNext f x = mapNext f y) :
    (∃ t u, x = .next t ∧ y = .next u) ∨ x = y :=
  match x, y, h with
  | .next t, .next u, _ => .inl ⟨t, u, rfl, rfl⟩
  | .fault _, .fault _, rfl => .inr rfl
  | .refused _, .refused _, rfl => .inr rfl

theorem emits_withRam {s : State} {m : Memory} (h : Memory.get m s.a.toNat = Memory.get s.ram s.a.toNat) (i : Instr) :
    emits i { s with ram := m } = emits i s := by
  have hy (y : Operand) : yOperand { s with ram := m } (Memory.get m s.a.toNat) y =
      yOperand s (Memory.get s.ram s.a.toNat) y := by rw [h]; cases y <;> rfl
  rcases mapNext_eq_cases (exec_withRam h i) with ⟨t, u, ht, hu⟩ | heq
  · simp only [emits, ht, hu, hy]
  · simp only [emits, heq, hy]

/-! ### The canonical form lists exactly the words that are not zero (log 14) -/

theorem Memory.mem_of_get_ne_zero {m : Memory} {k : Nat} (h : Memory.get m k ≠ 0#16) : (k, Memory.get m k) ∈ m := by
  induction m with
  | nil => exact absurd rfl h
  | cons b rest ih =>
    unfold Memory.get at h ⊢
    split at h
    · next hb => simp [← hb]
    · next hb => simpa [hb] using .inr (ih h)

theorem Memory.get_of_mem {m : Memory} (h : m.Pairwise fun x y => x.1 < y.1) {c : Cell} (hc : c ∈ m) :
    Memory.get m c.1 = c.2 := by
  induction m with
  | nil => simp at hc
  | cons b rest ih =>
    obtain ⟨hb, hrest⟩ := List.pairwise_cons.mp h
    rcases List.mem_cons.mp hc with rfl | hc
    · simp [Memory.get]
    · simp [Memory.get, Nat.ne_of_lt (hb c hc), ih hrest hc]

theorem Memory.mem_iff_get {m : Memory} (h : Memory.wf m = true) (c : Cell) :
    c ∈ m ↔ c.2 ≠ 0#16 ∧ Memory.get m c.1 = c.2 := by
  obtain ⟨hsorted, hnonzero⟩ := (Memory.wf_iff m).mp h
  refine ⟨fun hc => ⟨hnonzero c hc, Memory.get_of_mem hsorted hc⟩, fun ⟨hc, hget⟩ => ?_⟩
  have hmem := Memory.mem_of_get_ne_zero (hget ▸ hc)
  rwa [hget] at hmem

/-- Two canonical memories with the same words list the same cells, in the one order by rising address. -/
theorem Memory.eq_of_get_eq {m m' : Memory} (h : Memory.wf m = true) (h' : Memory.wf m' = true)
    (hget : ∀ k, Memory.get m k = Memory.get m' k) : m = m' := by
  have hirrefl : Std.Irrefl fun x y : Cell => x.1 < y.1 := ⟨fun c => Nat.lt_irrefl c.1⟩
  have hantisymm : Std.Antisymm fun x y : Cell => x.1 < y.1 := ⟨fun b c hbc hcb => absurd hbc (Nat.lt_asymm hcb)⟩
  refine List.Pairwise.eq_of_mem_iff ((Memory.wf_iff m).mp h).1 ((Memory.wf_iff m').mp h').1 fun c => ?_
  rw [Memory.mem_iff_get h, Memory.mem_iff_get h', hget]

/-! ### The fetch after a load (20_memory R55, 45_host_interface R223) -/

theorem step_of_fetch_ok {s : State} {i : Instr} (h : fetch s = .ok i) : step s = exec i s := by
  simp [step, h]

theorem fetch_after_load {lines : List Line} {s t : State} (h : loadProgram lines s = .ok t)
    (ha : s.a.toNat < config.ramSize) (hpc : s.pc.toNat < config.romSize) :
    fetch t = .ok (decode (((lines.map lineWord)[s.pc.toNat]?).getD 0#16)) := by
  obtain ⟨-, rfl⟩ := loadProgram_ok_iff.mp h
  exact fetch_ok_iff.mpr ⟨ha, hpc, congrArg decode (Memory.get_memoryOf _ 0 _ (Nat.zero_le _)).symm⟩

/-! ### What a host call does to RAM, and what it notifies (20_memory R47 to R49) -/

theorem keepsMachine_of_keepsKeyboard {c : HostCall} (h : keepsKeyboard c = true) : keepsMachine c = true := by
  cases c with
  | construct | reset => cases h
  | _ => rfl

/-- An accepted host write replaces one word and notifies that write. -/
theorem writeReply_next_ram {s : State} {addr v : Word} {r : Reply} (h : writeReply (memWrite s addr v) = .next r) :
    r.state.ram = Memory.set s.ram addr.toNat v ∧ r.notes = notify addr v := by
  obtain ⟨p, hp, rfl⟩ := writeReply_next_iff.mp h
  obtain ⟨-, rfl⟩ := memWrite_ok_iff.mp hp
  exact ⟨rfl, rfl⟩

/-- An accepted call that does not zero the machine leaves RAM alone and notifies nothing, or writes one word and notifies
that write; the word is not the keyboard's unless the call is a host write of it. -/
theorem call_next_ram {c : HostCall} {s : State} {r : Reply} (hc : keepsMachine c = true) (h : call c s = .next r) :
    r.state.ram = s.ram ∧ r.notes = [] ∨
    ∃ addr v, (keepsKeyboard c = true → addr.toNat ≠ config.kbdAddr) ∧
      r.state.ram = Memory.set s.ram addr.toNat v ∧ r.notes = notify addr v := by
  cases c with
  | construct => cases hc
  | loadProgram lines =>
    obtain ⟨t, ht, rfl⟩ := call_loadProgram_next_iff.mp h
    obtain ⟨-, rfl⟩ := loadProgram_ok_iff.mp ht
    exact .inl ⟨rfl, rfl⟩
  | reset => cases hc
  | tick =>
    obtain ⟨hstep, -, hnotes⟩ := call_tick_next_iff.mp h
    rw [hnotes]
    rcases step_next_ram hstep with ⟨-, hkept⟩ | ⟨-, hkbd, hwrote⟩
    · exact .inl hkept
    · exact .inr ⟨s.a, refOut s, fun _ => hkbd, hwrote⟩
  | readMemory addr =>
    obtain ⟨v, -, rfl⟩ := call_readMemory_next_iff.mp h
    exact .inl ⟨rfl, rfl⟩
  | writeMemory addr value =>
    exact .inr ⟨addr, value, of_decide_eq_true, writeReply_next_ram (call_writeMemory addr value s ▸ h)⟩
  | injectKey code => exact .inr ⟨_, code, nofun, writeReply_next_ram (call_injectKey code s ▸ h)⟩
  | clearKey => exact .inr ⟨_, 0#16, nofun, writeReply_next_ram (call_clearKey s ▸ h)⟩

/-- The same of what any call leaves: a rejected call leaves RAM alone and notifies nothing (60_exceptions R252). -/
theorem afterCall_ram {c : HostCall} (s : State) (hc : keepsMachine c = true) :
    (afterCall c s).ram = s.ram ∧ callNotes c s = [] ∨
    ∃ addr v, (keepsKeyboard c = true → addr.toNat ≠ config.kbdAddr) ∧
      (afterCall c s).ram = Memory.set s.ram addr.toNat v ∧ callNotes c s = notify addr v := by
  cases h : call c s with
  | next r =>
    obtain ⟨hstate, hnotes⟩ := afterCall_next h
    rw [hstate, hnotes]
    exact call_next_ram hc h
  | fault f =>
    obtain ⟨hstate, hnotes⟩ := afterCall_fault h
    exact .inl ⟨by rw [hstate], hnotes⟩
  | refused r => exact .inl (by simp [afterCall, callNotes, h])

/-- No call but a host write of it changes the keyboard word (20_memory R48, R49). -/
theorem afterCall_keyboard {c : HostCall} (s : State) (hc : keepsKeyboard c = true) :
    Memory.get (afterCall c s).ram config.kbdAddr = Memory.get s.ram config.kbdAddr := by
  rcases afterCall_ram s (keepsMachine_of_keepsKeyboard hc) with ⟨hram, -⟩ | ⟨addr, v, haddr, hram, -⟩
  · rw [hram]
  · rw [hram, Memory.get_set_other _ _ (haddr hc).symm]

/-! ### The display that copies the notifications (20_memory R47, 45_host_interface R228) -/

theorem mirrored_append (ns ns' : List Note) (k : Nat) (v : Word) :
    mirrored (ns ++ ns') k v = mirrored ns' k (mirrored ns k v) := List.foldl_append

/-- In the screen range, copying the notification of a write is making the write. -/
theorem mirrored_notify (m : Memory) (addr v : Word) {k : Nat} (hlo : config.screenBase ≤ k)
    (hhi : k < config.screenBase + config.screenLen) :
    mirrored (notify addr v) k (Memory.get m k) = Memory.get (Memory.set m addr.toNat v) k := by
  rw [Memory.get_set]
  by_cases hk : k = addr.toNat
  · subst hk
    simp [notify, inScreen_iff.mpr ⟨hlo, hhi⟩, mirrored]
  · unfold notify
    rw [if_neg hk]
    split <;> simp [mirrored, Ne.symm hk]

theorem mirrored_afterCall {c : HostCall} (s : State) (hc : keepsMachine c = true) {k : Nat}
    (hlo : config.screenBase ≤ k) (hhi : k < config.screenBase + config.screenLen) :
    mirrored (callNotes c s) k (Memory.get s.ram k) = Memory.get (afterCall c s).ram k := by
  rcases afterCall_ram s hc with ⟨hram, hnotes⟩ | ⟨addr, v, -, hram, hnotes⟩
  · rw [hram, hnotes]; rfl
  · rw [hram, hnotes, mirrored_notify _ _ _ hlo hhi]

theorem shows_afterCall {display : Nat → Word} {s : State} (h : Shows display s) {c : HostCall}
    (hc : keepsMachine c = true) : Shows (fun k => mirrored (callNotes c s) k (display k)) (afterCall c s) := by
  intro k hlo hhi
  dsimp only
  rw [h k hlo hhi, mirrored_afterCall s hc hlo hhi]

/-- A tick is the host call that ticks. -/
theorem shows_after_step {display : Nat → Word} {s t : State} (h : Shows display s) (hstep : step s = .next t) :
    Shows (fun k => mirrored (tickNotes s) k (display k)) t := by
  obtain ⟨hstate, hnotes⟩ :=
    afterCall_next (r := ⟨t, none, tickNotes s⟩) (call_tick_next_iff.mpr ⟨hstep, rfl, rfl⟩)
  have hcall := shows_afterCall h (c := .tick) rfl
  rwa [hstate, hnotes] at hcall

end Sys2Proof.Machine

namespace Sys2Proof.Proofs

open Sys2Proof.Machine Sys2Proof.Claims

/-- Settles O58: every call writes at most one RAM word and notifies that write when it is in the screen range. -/
theorem eachStepKeepsTheDisplayTrue : Obligations.EachStepKeepsTheDisplayTrue :=
  ⟨fun _ _ _ h hstep => shows_after_step h hstep, fun _ _ _ hc h => shows_afterCall h hc⟩

/-- Settles O30: the keyboard guard comes before the next-PC guard, and what passes it stores elsewhere. -/
theorem keyboardStoreIsRejected : Obligations.KeyboardStoreIsRejected := by
  refine ⟨fun i y c d j s hi hd ha => exec_keyboardStore hi (writesM_eq_storesTo d ▸ hd) ha, fun s t h => ?_⟩
  rcases step_next_ram h with ⟨-, hram, -⟩ | ⟨-, hkbd, hram, -⟩
  · rw [hram]
  · rw [hram, Memory.get_set_other _ _ hkbd.symm]

/-- Settles O36: the fetch uses no RAM word, and the executed instruction only the one step 1 reads. -/
theorem oneRamWordIsRead : Obligations.OneRamWordIsRead := by
  intro s m h
  rw [step, tickNotes, step, tickNotes, fetch_withRam]
  cases fetch s with
  | error f => exact ⟨rfl, rfl⟩
  | ok i => exact ⟨exec_withRam h i, emits_withRam h i⟩

/-- Settles O37. -/
theorem romIsOnlyFetched : Obligations.RomIsOnlyFetched := exec_withRom

/-- Settles O38: by whether the fetched word stores. -/
theorem oneRamWordIsWritten : Obligations.OneRamWordIsWritten := by
  intro s t h
  refine ⟨step_next_rom h, ?_⟩
  rcases step_next_ram h with ⟨hstores, hram, -⟩ | ⟨hstores, -, hram, -⟩
  · simp [hstores, hram]
  · refine ⟨fun k hk => ?_, by simp [hstores], fun _ => ?_⟩
    · rw [hram, Memory.get_set_other _ _ hk]
    · rw [hram, Memory.get_set_same]

/-- Settles O45: a canonical memory lists exactly its words that are not zero, by rising address. -/
theorem equalWordsAreEqualMemories : Obligations.EqualWordsAreEqualMemories := fun _ _ => Memory.eq_of_get_eq

/-- Settles O52: the load leaves the registers alone, so the fetch passes its guards at the same PC. -/
theorem loadTakesEffectAtTheNextTick : Obligations.LoadTakesEffectAtTheNextTick := fun _ _ _ h ha hpc =>
  step_of_fetch_ok (fetch_after_load h ha hpc)

/-- Settles O56, by induction on the list of calls. -/
theorem onlyTheHostWritesTheKeyboard : Obligations.OnlyTheHostWritesTheKeyboard := by
  intro calls
  induction calls with
  | nil => exact fun _ _ => rfl
  | cons c rest ih =>
    intro s h
    obtain ⟨hc, hrest⟩ := List.forall_mem_cons.mp h
    rw [session_cons, ih _ hrest, afterCall_keyboard s hc]

/-- Settles O57, by induction on the list of calls. -/
theorem notificationsMirrorTheScreen : Obligations.NotificationsMirrorTheScreen := by
  intro calls
  induction calls with
  | nil => exact fun _ _ _ _ _ => rfl
  | cons c rest ih =>
    intro s k h hlo hhi
    obtain ⟨hc, hrest⟩ := List.forall_mem_cons.mp h
    rw [session_cons, mirrored_append, mirrored_afterCall s hc hlo hhi, ih _ k hrest hlo hhi]

end Sys2Proof.Proofs
end

section
/-! PROOFS of the family 30_encoding: where the fields stand, re-encoding, and what overlapping rows and unused bits leave
unchanged. -/

namespace Sys2Proof

open Sys2Proof.Machine Sys2Proof.Claims

/-! ### The fields by arithmetic on the word (30_encoding R63 to R67) -/

/-- The low three bits as a number: a three-bit field once it is shifted down. -/
theorem and_seven_toNat (v : Word) :
    (v &&& 7#16).toNat = (v.getLsbD 2).toNat * 4 + (v.getLsbD 1).toNat * 2 + (v.getLsbD 0).toNat := by
  have hmod : (v &&& 7#16).toNat = v.toNat % 8 := Nat.and_two_pow_sub_one_eq_mod v.toNat 3
  simp only [hmod, ← BitVec.testBit_toNat, Nat.toNat_testBit]
  omega

theorem ofBit_eq_ite (b : Bool) : Operand.ofBit b = if b then .mem else .addr := by cases b <;> rfl

theorem ofBits_eq_destOfCode (w : Word) :
    Dest.ofBits (w.getLsbD 5) (w.getLsbD 4) (w.getLsbD 3) = destOfCode w := by
  unfold destOfCode
  simp only [and_seven_toNat, BitVec.getLsbD_ushiftRight, Nat.reduceAdd]
  cases w.getLsbD 5 <;> cases w.getLsbD 4 <;> cases w.getLsbD 3 <;> rfl

theorem ofBits_eq_jumpOfCode (w : Word) :
    Jump.ofBits (w.getLsbD 2) (w.getLsbD 1) (w.getLsbD 0) = jumpOfCode w := by
  unfold jumpOfCode
  rw [and_seven_toNat]
  cases w.getLsbD 2 <;> cases w.getLsbD 1 <;> cases w.getLsbD 0 <;> rfl

theorem extractCode_eq_ofNat (w : Word) : w.extractLsb' 6 6 = BitVec.ofNat 6 (w.toNat / 64 % 64) := by
  apply BitVec.eq_of_toNat_eq
  rw [BitVec.extractLsb'_toNat, Nat.shiftRight_eq_div_pow, BitVec.toNat_ofNat, Nat.mod_mod]

theorem extractValue_eq_ofNat (w : Word) : w.extractLsb' 0 15 = BitVec.ofNat 15 (w &&& 0x7FFF#16).toNat := by
  have hmod : (w &&& 0x7FFF#16).toNat = w.toNat % 2 ^ 15 := Nat.and_two_pow_sub_one_eq_mod w.toNat 15
  apply BitVec.eq_of_toNat_eq
  rw [BitVec.extractLsb'_toNat, Nat.shiftRight_zero, BitVec.toNat_ofNat, hmod, Nat.mod_mod]

/-! ### The canonical word (R69) -/

/-- The fields of a compute-instruction stand side by side in its word, below three one bits. -/
theorem encodeFields_compute_eq_append (y : Operand) (c : Code) (d : Dest) (j : Jump) :
    encodeFields (.compute y c d j) =
      (0b111#3 ++ BitVec.ofBool y.aBit ++ c ++ d.bits ++ j.bits).setWidth 16 := by
  apply BitVec.eq_of_getLsbD_eq
  intro i hi
  rw [BitVec.getLsbD_setWidth]
  simp only [BitVec.getLsbD_append]
  interval_cases i <;> simp [encodeFields]

theorem toNat_append_eq_add {m n : Nat} (x : BitVec m) (z : BitVec n) : (x ++ z).toNat = x.toNat * 2 ^ n + z.toNat := by
  rw [BitVec.toNat_append, ← Nat.shiftLeft_add_eq_or_of_lt z.isLt, Nat.shiftLeft_eq]

/-- The three bits of 0xE000 stand above every field, so setting them adds them. -/
theorem toNat_highBits_or {n : Nat} (h : n < 2 ^ 13) : (0xE000#16 ||| BitVec.ofNat 16 n).toNat = 0xE000 + n := by
  have hn : n < 2 ^ 16 := by omega
  rw [BitVec.toNat_or, BitVec.toNat_ofNat, BitVec.toNat_ofNat, Nat.mod_eq_of_lt hn]
  exact (Nat.two_pow_add_eq_or_of_lt h 7).symm

theorem aBit_toNat (y : Operand) : y.aBit.toNat * 4096 = if y = .mem then 4096 else 0 := by cases y <;> rfl

/-- The canonical word as a sum: each field times the place it stands at. -/
theorem encodeFields_compute_eq_sum (y : Operand) (c : Code) (d : Dest) (j : Jump) :
    encodeFields (.compute y c d j) = 0xE000#16 |||
      BitVec.ofNat 16 ((if y = .mem then 4096 else 0) + c.toNat * 64 + d.bits.toNat * 8 + j.bits.toNat) := by
  have hy := y.aBit.toNat_lt
  rw [← aBit_toNat]
  apply BitVec.eq_of_toNat_eq
  rw [encodeFields_compute_eq_append, toNat_highBits_or (by omega), BitVec.toNat_setWidth]
  simp only [toNat_append_eq_add, BitVec.toNat_ofBool, BitVec.toNat_ofNat]
  omega

/-- Re-encoding the fields of a word sets its unused bits if it is a compute-instruction, and nothing else. -/
theorem encodeFields_decodeFields (w : Word) :
    encodeFields (decodeFields w) = if w.getLsbD 15 then w ||| 0x6000#16 else w := by
  unfold decodeFields
  split
  case isTrue h15 =>
    have h15bit : w[15] = true := h15
    rw [encodeFields_compute_eq_append, Dest.bits_ofBits, Jump.bits_ofBits, Operand.aBit_ofBit]
    apply BitVec.eq_of_getLsbD_eq
    intro i hi
    rw [BitVec.getLsbD_setWidth]
    simp only [BitVec.getLsbD_append]
    interval_cases i <;> simp [h15bit]
  case isFalse h15 =>
    apply BitVec.eq_of_getLsbD_eq
    intro i hi
    rcases Nat.lt_succ_iff_lt_or_eq.mp hi with hi | rfl
    · simp [encodeFields, hi, Nat.lt_succ_of_lt hi]
    · simpa [encodeFields] using h15

/-! ### Every word is named by a well-formed term (R68) -/

theorem compRows_wf : ∀ r ∈ compRows, ∀ d j, (r.instr d j).wf = true := by
  simp [compRows, compRowsA, compRowsM, Instr.wf]

theorem shapeInstr_wf {y : Operand} {c : Code} (h : compRow y c = none) (d : Dest) (j : Jump) :
    (shapeInstr y c d j).wf = true := by
  have hdoc : undocumented y c = true := undocumented_iff.mpr h
  cases d <;> cases j <;> cases y <;> simp [shapeInstr, Instr.wf, hdoc]

theorem Fields.instr_wf (f : Fields) : f.instr.wf = true := by
  cases f with
  | address v => rfl
  | compute y c d j =>
    unfold Fields.instr
    dsimp only
    split
    · next r h => exact compRows_wf r (compRow_some h).1 d j
    · next h => exact shapeInstr_wf h d j

/-! ### Fields alone decide the meaning (R79) -/

theorem decode_encode_fields (i : Instr) : (decode (encode i)).fields = i.fields := by
  rw [decode_fields, encode, decodeFields_encodeFields]

theorem exec_eq_of_fields_eq {i k : Instr} (h : i.fields = k.fields) (s : State) : exec i s = exec k s := by
  rw [exec_eq_runFields, exec_eq_runFields, h]

/-! ### The unused bits are read by nothing (R69) -/

/-- The mask 0x9FFF clears bits 14 and 13 alone, and no field stands there. -/
theorem decodeFields_clearUnused {w : Word} (h : w.getLsbD 15 = true) :
    decodeFields (w &&& 0x9FFF#16) = decodeFields w := by
  have hcode : (w &&& 0x9FFF#16).extractLsb' 6 6 = w.extractLsb' 6 6 := by
    rw [BitVec.extractLsb'_and]
    exact BitVec.and_allOnes
  simp [decodeFields, h, hcode]

theorem decode_eq_of_agree {w w' : Word} (h : w.getLsbD 15 = true) (hmask : w &&& 0x9FFF#16 = w' &&& 0x9FFF#16) :
    decode w = decode w' := by
  have h' : w'.getLsbD 15 = true := by
    have hbit : (w &&& 0x9FFF#16).getLsbD 15 = (w' &&& 0x9FFF#16).getLsbD 15 := by rw [hmask]
    rw [BitVec.getLsbD_and, BitVec.getLsbD_and, h] at hbit
    simpa using hbit.symm
  rw [decode, decode, ← decodeFields_clearUnused h, ← decodeFields_clearUnused h', hmask]

theorem memRead_placeAtPc (s : State) (w addr : Word) : memRead (placeAtPc s w) addr = memRead s addr := rfl

/-- The fetch reads the placed word through the decoder alone. -/
theorem fetch_placeAtPc_eq {w w' : Word} (h : decode w = decode w') (s : State) :
    fetch (placeAtPc s w) = fetch (placeAtPc s w') := by
  unfold fetch
  simp only [placeAtPc_pc, placeAtPc_a, memRead_placeAtPc]
  by_cases hpc : s.pc.toNat < config.romSize
  · have hrom (v : Word) : romRead (placeAtPc s v) s.pc = .ok v := romRead_ok_iff.mpr ⟨hpc, by simp⟩
    simp only [hrom, h]
  · have hrom (v : Word) : romRead (placeAtPc s v) s.pc = .error (.outOfRange .rom s.pc.toNat) :=
      romRead_error_iff.mpr ⟨Nat.le_of_not_lt hpc, rfl⟩
    simp only [hrom]

/-- ROM aside, an instruction runs the same whatever word is placed. -/
theorem exec_placeAtPc (i : Instr) (s : State) (w : Word) :
    mapNext (fun t => { t with rom := [] }) (exec i (placeAtPc s w)) =
      mapNext (fun t => { t with rom := [] }) (exec i s) := by
  rw [placeAtPc, exec_withRom]
  cases exec i s <;> rfl

theorem step_placeAtPc_eq {w w' : Word} (h : decode w = decode w') (s : State) :
    mapNext (fun t => { t with rom := [] }) (step (placeAtPc s w)) =
      mapNext (fun t => { t with rom := [] }) (step (placeAtPc s w')) := by
  unfold step
  rw [fetch_placeAtPc_eq h]
  cases fetch (placeAtPc s w') with
  | error f => rfl
  | ok i => exact (exec_placeAtPc i s w).trans (exec_placeAtPc i s w').symm

end Sys2Proof

namespace Sys2Proof.Proofs

open Sys2Proof.Machine Sys2Proof.Claims

/-- Settles O2, field by field. -/
theorem fieldsStandWhereTheFormatsSay : Obligations.FieldsStandWhereTheFormatsSay := by
  intro w
  rw [decode_fields, decodeFields, ofBit_eq_ite, ofBits_eq_destOfCode, ofBits_eq_jumpOfCode, extractCode_eq_ofNat,
    extractValue_eq_ofNat]

/-- Settles O4: the decoder names a row of its own choice, which keeps the fields of the word. -/
theorem everyWordIsAnInstruction : Obligations.EveryWordIsAnInstruction := fun w =>
  ⟨Fields.instr_wf (decodeFields w), by rw [encode, decode_fields, encodeFields_decodeFields]⟩

/-- Settles O5: encoding keeps the fields, and the meaning is that of the fields. -/
theorem encodingKeepsTheMeaning : Obligations.EncodingKeepsTheMeaning := fun i s =>
  exec_eq_of_fields_eq (decode_encode_fields i) s

/-- Settles O6: the two words decode to one instruction, and the step depends on ROM through the decoder alone. -/
theorem unusedBitsAreIgnored : Obligations.UnusedBitsAreIgnored :=
  ⟨fun _ _ h hmask =>
    ⟨decode_eq_of_agree h hmask, step_placeAtPc_eq (decode_eq_of_agree h hmask)⟩,
   encodeFields_compute_eq_sum⟩

end Sys2Proof.Proofs
end

section
/-! PROOFS of the family 40_alu: the closed form of every control code, the flags, and the operand a code discards. -/

namespace Sys2Proof.Machine

open Sys2Proof.Claims

/-! ### The closed forms, block by block (40_alu R84, R85) -/

/-- What the eight codes with the same `zx nx zy` compute, in the order of `ny f no`: `u` is `x` after stage 1, `v` is `y`
after its zeroing, before its complement. -/
def codeBlock (u v : Word) : List Word :=
  [u &&& v, ~~~(u &&& v), u + v, ~~~(u + v), u &&& ~~~v, ~~~(u &&& ~~~v), u + ~~~v, ~~~(u + ~~~v)]

/-- The blocks in the order of `zx nx zy`. -/
def codeBlocks (x y : Word) : List Word :=
  codeBlock x y ++ codeBlock x 0 ++ codeBlock (~~~x) y ++ codeBlock (~~~x) 0 ++
  codeBlock 0 y ++ codeBlock 0 0 ++ codeBlock (~~~0) y ++ codeBlock (~~~0) 0

/-- The codes by their flags `zx nx zy`, most significant first (R80). -/
theorem range_64_eq_append : List.range 64 =
    List.range' 0 8 ++ List.range' 8 8 ++ List.range' 16 8 ++ List.range' 24 8 ++
    List.range' 32 8 ++ List.range' 40 8 ++ List.range' 48 8 ++ List.range' 56 8 := by decide

/-- The blocks hold the results of all codes, in order: each block evaluates the flags of its own eight. -/
theorem codeBlocks_eq_map (x y : Word) :
    codeBlocks x y = (List.range 64).map fun n => aluOut x y (BitVec.ofNat 6 n) := by
  rw [range_64_eq_append]
  simp only [List.map_append]
  rfl

/-- The identity of R83, in the numerals that `ring` reads. -/
theorem not_eq_neg_sub_one (v : Word) : ~~~v = -v - 1 := BitVec.not_eq_neg_add v

theorem not_sub_one (v : Word) : ~~~(v - 1) = -v := by rw [not_eq_neg_sub_one]; ring

theorem codeBlock_eq (u v : Word) : codeBlock u v =
    [u &&& v, ~~~(u &&& v), u + v, -u - v - 1, u &&& ~~~v, ~~~u ||| v, u - v - 1, v - u] := by
  have hor : ~~~(u &&& ~~~v) = ~~~u ||| v := by rw [BitVec.not_and, BitVec.not_not]
  have hsum : ~~~(u + v) = -u - v - 1 := by rw [not_eq_neg_sub_one]; ring
  have hdiff : u + ~~~v = u - v - 1 := by rw [not_eq_neg_sub_one]; ring
  have hrev : ~~~(u - v - 1) = v - u := by rw [not_eq_neg_sub_one]; ring
  rw [codeBlock, hor, hsum, hdiff, hrev]

theorem codeBlock_zero_right (u : Word) : codeBlock u 0 = [0, -1, u, ~~~u, u, ~~~u, u - 1, -u] := by
  have hand : u &&& 0 = 0 := BitVec.and_zero
  have hones : u &&& ~~~0 = u := BitVec.and_allOnes
  have hdec : u + ~~~0 = u - 1 := by rw [not_eq_neg_sub_one]; ring
  rw [codeBlock, hand, hones, hdec, not_sub_one, add_zero]
  rfl

theorem codeBlock_not_left (x y : Word) : codeBlock (~~~x) y =
    [~~~x &&& y, x ||| ~~~y, y - x - 1, x - y, ~~~(x ||| y), x ||| y, -x - y - 2, x + y + 1] := by
  have hor : ~~~(~~~x &&& y) = x ||| ~~~y := by rw [BitVec.not_and, BitVec.not_not]
  have hsum : ~~~x + y = y - x - 1 := by rw [not_eq_neg_sub_one]; ring
  have hdiff : -(~~~x) - y - 1 = x - y := by rw [not_eq_neg_sub_one]; ring
  have hneg : ~~~x - y - 1 = -x - y - 2 := by rw [not_eq_neg_sub_one]; ring
  have hinc : y - ~~~x = x + y + 1 := by rw [not_eq_neg_sub_one]; ring
  rw [codeBlock_eq, hor, hsum, hdiff, hneg, hinc, BitVec.not_or, BitVec.not_not]

theorem codeBlock_not_zero (x : Word) : codeBlock (~~~x) 0 = [0, -1, ~~~x, x, ~~~x, x, -x - 2, x + 1] := by
  have hdec : ~~~x - 1 = -x - 2 := by rw [not_eq_neg_sub_one]; ring
  have hneg : -(~~~x) = x + 1 := by rw [not_eq_neg_sub_one]; ring
  rw [codeBlock_zero_right, hdec, hneg, BitVec.not_not]

theorem codeBlock_zero_left (y : Word) : codeBlock 0 y = [0, -1, y, ~~~y, 0, -1, ~~~y, y] := by
  have hand (v : Word) : 0 &&& v = 0 := BitVec.zero_and
  rw [codeBlock, hand, hand, zero_add, zero_add, BitVec.not_not]
  rfl

theorem codeBlock_ones_left (y : Word) : codeBlock (~~~0) y = [y, ~~~y, y - 1, -y, ~~~y, y, -y - 2, y + 1] := by
  have hand (v : Word) : ~~~0 &&& v = v := BitVec.allOnes_and
  have hdec : ~~~0 + y = y - 1 := by rw [not_eq_neg_sub_one]; ring
  have hsub : ~~~0 + ~~~y = -y - 2 := by rw [not_eq_neg_sub_one, not_eq_neg_sub_one]; ring
  have hinc : ~~~(-y - 2) = y + 1 := by rw [not_eq_neg_sub_one]; ring
  rw [codeBlock, hand, hand, hdec, not_sub_one, hsub, hinc, BitVec.not_not]

/-- The table of R84 is the eight blocks. -/
theorem closedForms_eq_codeBlocks (x y : Word) : closedForms x y = codeBlocks x y := by
  have h00 : codeBlock 0 0 = [0, -1, 0, -1, 0, -1, -1, 0] := rfl
  have h10 : codeBlock (~~~0) 0 = [0, -1, -1, 0, -1, 0, -2, 1] := rfl
  rw [codeBlocks, codeBlock_eq x y, codeBlock_zero_right x, codeBlock_not_left, codeBlock_not_zero,
    h00, codeBlock_zero_left, h10, codeBlock_ones_left, closedForms]

/-! ### The flags (40_alu R81) -/

@[simp] theorem alu_out (x y : Word) (c : Code) : (alu x y c).out = aluOut x y c := rfl
@[simp] theorem alu_zr (x y : Word) (c : Code) : (alu x y c).zr = zrFlag (aluOut x y c) := rfl
@[simp] theorem alu_ng (x y : Word) (c : Code) : (alu x y c).ng = ngFlag (aluOut x y c) := rfl

theorem ngFlag_iff_toInt_neg {out : Word} : ngFlag out = true ↔ out.toInt < 0 := by
  rw [ngFlag_iff]
  have hlt : out.toNat < 0x10000 := out.isLt
  rcases toInt_cases out with ⟨h, hint⟩ | ⟨h, hint⟩ <;> omega

theorem not_zrFlag_and_ngFlag (out : Word) : ¬(zrFlag out = true ∧ ngFlag out = true) := by
  rw [zrFlag_iff, ngFlag_iff]
  omega

theorem flags_clear_iff (out : Word) :
    zrFlag out = false ∧ ngFlag out = false ↔ 1 ≤ out.toNat ∧ out.toNat ≤ 0x7FFF := by
  rw [← Bool.not_eq_true, ← Bool.not_eq_true, zrFlag_iff, ngFlag_iff]
  omega

/-! ### The operand a code zeroes (40_alu R86) -/

/-- Zeroing comes before complementing, so nothing of the operand is left (R80). -/
theorem preset_zeroed (neg : Bool) (v v' : Word) : preset true neg v = preset true neg v' := rfl

theorem alu_of_zx {c : Code} (h : c.getLsbD 5 = true) (x x' y : Word) : alu x y c = alu x' y c := by
  simp only [alu, aluOut, h, preset_zeroed _ x x']

theorem alu_of_zy {c : Code} (h : c.getLsbD 3 = true) (x y y' : Word) : alu x y c = alu x y' c := by
  simp only [alu, aluOut, h, preset_zeroed _ y y']

theorem computeWrites_of_zy {c : Code} (h : c.getLsbD 3 = true) (s : State) (y y' : Operand) (d : Dest) (j : Jump)
    (m : Word) : computeWrites s y c d j m = computeWrites s y' c d j m := by
  simp only [computeWrites, alu_of_zy h s.d (yOperand s m y) (yOperand s m y')]

theorem exec_compute (y : Operand) (c : Code) (d : Dest) (j : Jump) (s : State) :
    exec (.compute y c d j) s = tickWith s (computeWrites s y c d j) :=
  exec_eq_runFields (.compute y c d j) s

/-- Step 1's read comes first, whatever the instruction (41_cycle_step R133, R137). -/
theorem exec_fault_of_outside_ram (i : Instr) {s : State} (ha : config.ramSize ≤ s.a.toNat) :
    exec i s = .fault (.outOfRange .ram s.a.toNat) := by
  obtain ⟨w, hw, -⟩ := exec_eq_tickWith i s
  exact hw.trans (tickWith_fault_iff.mpr (.inl ⟨ha, rfl⟩))

end Sys2Proof.Machine

namespace Sys2Proof.Proofs

open Sys2Proof.Machine Sys2Proof.Claims

/-- Settles O7: the closed forms are the results in the order of their codes. -/
theorem aluClosedForms : Obligations.AluClosedForms := by
  intro x y c
  rw [closedForms_eq_codeBlocks, codeBlocks_eq_map, List.getElem?_map, List.getElem?_range c.isLt, Option.map_some,
    BitVec.ofNat_toNat, BitVec.setWidth_eq, alu_out]

/-- Settles O8, flag by flag. -/
theorem aluFlags : Obligations.AluFlags := fun _ _ _ =>
  ⟨zrFlag_iff, ngFlag_iff_toInt_neg, Iff.rfl, not_zrFlag_and_ngFlag _, flags_clear_iff _⟩

/-- Settles O9: a zeroed operand leaves no trace in the writes, and the RAM guard does not look at them. -/
theorem zeroedOperandIsIndependent : Obligations.ZeroedOperandIsIndependent := by
  refine ⟨fun x x' y c h => alu_of_zx h x x' y, fun x y y' c h => alu_of_zy h x y y', fun c d j s h => ?_,
    fun y c d j s ha => exec_fault_of_outside_ram _ ha⟩
  rw [exec_compute, exec_compute, funext (computeWrites_of_zy h s .addr .mem d j)]

/-- Settles O10: the all-one code zeroes both operands, so one pair stands for all. -/
theorem allOneCodeYieldsOne : Obligations.AllOneCodeYieldsOne := by
  refine ⟨fun x y => ?_, fun x y => rfl, by decide⟩
  rw [alu_of_zx rfl x 0, alu_of_zy rfl 0 y 0]
  decide

end Sys2Proof.Proofs
end

section
/-! PROOFS of the family 41_cycle_step: the step function of R130, its guards in the order of R137, and its notifications. -/

namespace Sys2Proof.Machine

open Sys2Proof.Claims

/-! ### The fields of the fetched word, as the bits R130 reads -/

theorem writesD_ofBits (a d m : Bool) : writesD (Dest.ofBits a d m) = d := by
  cases a <;> cases d <;> cases m <;> rfl

theorem writesA_ofBits (a d m : Bool) : writesA (Dest.ofBits a d m) = a := by
  cases a <;> cases d <;> cases m <;> rfl

/-- The table of 44_jump R200 is its bit form, since the two flags are never both set (40_alu R81). -/
theorem jumpCond_ofBits (n z p : Bool) (out : Word) :
    jumpCond (Jump.ofBits n z p) (zrFlag out) (ngFlag out) =
      ((n && ngFlag out) || (z && zrFlag out) || (p && !zrFlag out && !ngFlag out)) := by
  have hflags := not_zrFlag_and_ngFlag out
  cases hz : zrFlag out <;> cases hn : ngFlag out
  case true.true => exact absurd ⟨hz, hn⟩ hflags
  all_goals cases n <;> cases z <;> cases p <;> rfl

/-- The immediate of an address-instruction, zero-extended, is its word without bit 15 (42_address_instruction R150). -/
theorem setWidth_extractValue (w : Word) : (w.extractLsb' 0 15).setWidth 16 = w &&& 0x7FFF#16 := by
  have hmod : (w &&& 0x7FFF#16).toNat = w.toNat % 2 ^ 15 := Nat.and_two_pow_sub_one_eq_mod w.toNat 15
  apply BitVec.eq_of_toNat_eq
  rw [hmod, BitVec.toNat_setWidth, BitVec.extractLsb'_toNat, Nat.shiftRight_zero]
  omega

/-! ### What the fetched word writes -/

/-- What the tick at `ROM[PC]` writes, by R130 over the bits of the word. -/
def refWrites (s : State) : Writes where
  mem := selected (refStores s) (refOut s)
  d := selected ((refWord s).getLsbD 15 && (refWord s).getLsbD 4) (refOut s)
  a := if (refWord s).getLsbD 15 then selected ((refWord s).getLsbD 5) (refOut s) else some (refWord s &&& 0x7FFF#16)
  next := refNext s

theorem addressWrites_eq_refWrites {s : State} {v : BitVec 15} (hw : decodeFields (refWord s) = .address v) :
    addressWrites s v = refWrites s := by
  unfold decodeFields at hw
  split at hw
  · cases hw
  · next hbit =>
    obtain rfl := Fields.address.inj hw
    simp only [addressWrites, refWrites, refStores, refNext, nextOf, refTaken, selected, setWidth_extractValue,
      Bool.eq_false_of_not_eq_true hbit, Bool.false_and, Bool.false_eq_true, if_false]

/-- Whether a fetched compute-instruction jumps, and which registers it writes, by its fields (30_encoding R66, R67). -/
theorem refTaken_dest_of_compute {s : State} {y : Operand} {c : Code} {d : Dest} {j : Jump}
    (hw : decodeFields (refWord s) = .compute y c d j) :
    (refWord s).getLsbD 15 = true ∧ refTaken s = jumpCond j (zrFlag (refOut s)) (ngFlag (refOut s)) ∧
      (refWord s).getLsbD 4 = writesD d ∧ (refWord s).getLsbD 5 = writesA d := by
  unfold decodeFields at hw
  split at hw
  · next hbit =>
    obtain ⟨-, -, rfl, rfl⟩ := Fields.compute.inj hw
    refine ⟨hbit, ?_, (writesD_ofBits _ _ _).symm, (writesA_ofBits _ _ _).symm⟩
    rw [jumpCond_ofBits, refTaken, hbit, Bool.true_and, zrFlag, ngFlag]
  · cases hw

theorem computeWrites_eq_refWrites {s : State} {y : Operand} {c : Code} {d : Dest} {j : Jump}
    (hw : decodeFields (refWord s) = .compute y c d j) : computeWrites s y c d j (ramAtA s) = refWrites s := by
  obtain ⟨hstores, hout⟩ := refStores_refOut_of_compute hw
  obtain ⟨hbit, htaken, hd, ha⟩ := refTaken_dest_of_compute hw
  simp only [computeWrites, refWrites, alu_out, alu_zr, alu_ng, ← hout, hstores, hbit, hd, ha, refNext, htaken,
    nextOf, nextPc, Bool.true_and, if_true]

/-- Step 1 latches `RAM[A0]`, so a tick depends on the writes for that word alone. -/
theorem tickWith_congr {s : State} {w w' : Word → Writes} (h : w (ramAtA s) = w' (ramAtA s)) :
    tickWith s w = tickWith s w' := by
  unfold tickWith
  cases hread : memRead s s.a with
  | error f => rfl
  | ok m =>
    obtain ⟨-, rfl⟩ := memRead_ok_iff.mp hread
    dsimp only
    rw [← ramAtA, h]

/-- The 46 meanings, reached through the decoder, are one tick with the writes of R130. -/
theorem exec_decode_refWord (s : State) : exec (decode (refWord s)) s = tickWith s fun _ => refWrites s := by
  rw [exec_eq_runFields, decode_fields]
  cases hw : decodeFields (refWord s) with
  | address v => rw [runFields_address, addressWrites_eq_refWrites hw]
  | compute y c d j => exact tickWith_congr (computeWrites_eq_refWrites hw)

/-! ### What a step can do -/

/-- Past the fetch guards the fetched instruction runs as R130 says. -/
theorem fetched_exec_iff {s : State} {r : Result} :
    (∃ i, fetch s = .ok i ∧ exec i s = r) ↔
      s.a.toNat < config.ramSize ∧ s.pc.toNat < config.romSize ∧ tickWith s (fun _ => refWrites s) = r := by
  rw [← exec_decode_refWord]
  constructor
  · rintro ⟨i, hfetch, hexec⟩
    obtain ⟨ha, hpc, rfl⟩ := fetch_ok_iff.mp hfetch
    exact ⟨ha, hpc, hexec⟩
  · rintro ⟨ha, hpc, hexec⟩
    exact ⟨_, fetch_ok_iff.mpr ⟨ha, hpc, rfl⟩, hexec⟩

theorem refWrites_mem_isSome (s : State) : (refWrites s).mem.isSome = refStores s := selected_isSome _ _

/-- An accepted step passed the four guards of R137 and committed the writes of R130. -/
theorem step_next_iff_guards {s t : State} :
    step s = .next t ↔
      s.a.toNat < config.ramSize ∧ s.pc.toNat < config.romSize ∧
        ¬(refStores s = true ∧ s.a.toNat = config.kbdAddr) ∧ refNext s < config.romSize ∧
        t = commit s (ramAtA s) (refWrites s) := by
  rw [step_next_iff, fetched_exec_iff, tickWith_next_iff, refWrites_mem_isSome, isKeyboard_iff]
  exact ⟨fun ⟨ha, hpc, _, h⟩ => ⟨ha, hpc, h⟩, fun ⟨ha, hpc, h⟩ => ⟨ha, hpc, ha, h⟩⟩

/-- A rejected step reports the first guard of R137 that fires. -/
theorem step_fault_iff_guards {s : State} {f : Fault} :
    step s = .fault f ↔
      (config.ramSize ≤ s.a.toNat ∧ f = .outOfRange .ram s.a.toNat) ∨
      (s.a.toNat < config.ramSize ∧ config.romSize ≤ s.pc.toNat ∧ f = .outOfRange .rom s.pc.toNat) ∨
      (s.a.toNat < config.ramSize ∧ s.pc.toNat < config.romSize ∧
        ((refStores s = true ∧ s.a.toNat = config.kbdAddr) ∧ f = .keyboardStore s.a.toNat ∨
          ¬(refStores s = true ∧ s.a.toNat = config.kbdAddr) ∧ config.romSize ≤ refNext s ∧
            f = .outOfRange .rom (refNext s))) := by
  rw [step_fault_iff, fetch_error_iff, fetched_exec_iff, tickWith_fault_iff, refWrites_mem_isSome, isKeyboard_iff,
    or_assoc]
  refine or_congr_right (or_congr_right (and_congr_right fun ha => and_congr_right fun _ => ?_))
  have hram : ¬config.ramSize ≤ s.a.toNat := Nat.not_le.mpr ha
  simp only [ha, hram, true_and, false_and, false_or, and_assoc]
  rfl

/-! The four guards, each where those before it let the tick through. -/

theorem step_ramGuard {s : State} (ha : config.ramSize ≤ s.a.toNat) : step s = .fault (.outOfRange .ram s.a.toNat) :=
  step_fault_iff_guards.mpr (.inl ⟨ha, rfl⟩)

section
variable {s : State} (ha : s.a.toNat < config.ramSize)
include ha

theorem step_fetchGuard (hpc : config.romSize ≤ s.pc.toNat) : step s = .fault (.outOfRange .rom s.pc.toNat) :=
  step_fault_iff_guards.mpr (.inr (.inl ⟨ha, hpc, rfl⟩))

theorem step_keyboardGuard (hpc : s.pc.toNat < config.romSize)
    (hkbd : refStores s = true ∧ s.a.toNat = config.kbdAddr) : step s = .fault (.keyboardStore s.a.toNat) :=
  step_fault_iff_guards.mpr (.inr (.inr ⟨ha, hpc, .inl ⟨hkbd, rfl⟩⟩))

theorem step_nextPcGuard (hpc : s.pc.toNat < config.romSize)
    (hkbd : ¬(refStores s = true ∧ s.a.toNat = config.kbdAddr)) (hnext : config.romSize ≤ refNext s) :
    step s = .fault (.outOfRange .rom (refNext s)) :=
  step_fault_iff_guards.mpr (.inr (.inr ⟨ha, hpc, .inr ⟨hkbd, hnext, rfl⟩⟩))

end

/-! What an accepted step leaves and notifies. -/

/-- The next program counter is inside ROM, so it is the same integer as a word: no wrap (R136). -/
theorem step_next_pc {s t : State} (h : step s = .next t) : t.pc.toNat = refNext s ∧ refNext s < config.romSize := by
  obtain ⟨-, -, -, hnext, rfl⟩ := step_next_iff_guards.mp h
  have hsize : config.romSize < 2 ^ 16 := by decide
  exact ⟨(BitVec.toNat_ofNat ..).trans (Nat.mod_eq_of_lt (hnext.trans hsize)), hnext⟩

/-- RAM and ROM have one size, so the target of a taken jump that passed the RAM guard is inside ROM (R136). -/
theorem not_refTaken_of_romSize_le {s : State} (ha : s.a.toNat < config.ramSize) (hnext : config.romSize ≤ refNext s) :
    refTaken s = false ∧ refNext s = s.pc.toNat + 1 := by
  cases htaken : refTaken s with
  | false => exact ⟨rfl, by simp [refNext, nextOf, htaken]⟩
  | true =>
    have htarget : refNext s = s.a.toNat := by simp [refNext, nextOf, htaken]
    exact absurd ha (Nat.not_lt.mpr (htarget ▸ hnext))

/-- An accepted tick notifies its store into the screen range, and nothing else (R140). -/
theorem step_next_notes {s t : State} (h : step s = .next t) :
    tickNotes s =
      if refStores s = true ∧ config.screenBase ≤ s.a.toNat ∧ s.a.toNat < config.screenBase + config.screenLen
      then [⟨s.a, refOut s⟩] else [] := by
  rcases step_next_ram h with ⟨hstores, -, hnotes⟩ | ⟨hstores, -, -, hnotes⟩
  · simp [hnotes, hstores]
  · simp [hnotes, hstores, notify, inScreen_iff]

theorem tick_of_guards {s : State} (ha : s.a.toNat < config.ramSize) (hpc : s.pc.toNat < config.romSize)
    (hkbd : ¬(refStores s = true ∧ s.a.toNat = config.kbdAddr)) (hnext : refNext s < config.romSize) :
    tick s = .next (commit s (ramAtA s) (refWrites s),
      if refStores s = true ∧ config.screenBase ≤ s.a.toNat ∧ s.a.toNat < config.screenBase + config.screenLen
      then [⟨s.a, refOut s⟩] else []) := by
  have hstep := step_next_iff_guards.mpr ⟨ha, hpc, hkbd, hnext, rfl⟩
  exact tick_next_iff.mpr ⟨hstep, (step_next_notes hstep).symm⟩

/-! ### The commit of R130, for each of the two kinds -/

theorem commit_refWrites_of_address {s : State} (hbit : (refWord s).getLsbD 15 = false) :
    commit s (ramAtA s) (refWrites s) =
      { s with pc := BitVec.ofNat 16 (refNext s), a := refWord s &&& 0x7FFF#16, ml := ramAtA s } := by
  simp only [commit, refWrites, refStores, hbit, selected, Bool.false_and, Bool.false_eq_true, if_false,
    Option.getD_some, Option.getD_none]

theorem commit_refWrites_of_compute {s : State} (hbit : (refWord s).getLsbD 15 = true) :
    commit s (ramAtA s) (refWrites s) =
      { pc := BitVec.ofNat 16 (refNext s)
        a := if (refWord s).getLsbD 5 then refOut s else s.a
        d := if (refWord s).getLsbD 4 then refOut s else s.d
        ml := ramAtA s
        ram := if (refWord s).getLsbD 3 then Memory.set s.ram s.a.toNat (refOut s) else s.ram
        rom := s.rom } := by
  simp only [commit, refWrites, refStores, hbit, Bool.true_and, if_true, selected_getD]
  cases (refWord s).getLsbD 3 <;> rfl

/-! ### The write order of R131 -/

theorem secondOperand_eq_yOperand (s : State) (y : Operand) : secondOperand s y = yOperand s (ramAtA s) y := by
  cases y <;> rfl

/-- The jump condition on the flags is the one on the signed result (44_jump R200 to R208). -/
theorem jumpCond_eq_jumps (j : Jump) (out : Word) : jumpCond j (zrFlag out) (ngFlag out) = jumps j out := by
  have hz : zrFlag out = decide (out.toInt = 0) := by
    rw [Bool.eq_iff_iff, zrFlag_iff, decide_eq_true_eq]
    rcases toInt_cases out with ⟨h, hint⟩ | ⟨h, hint⟩ <;> omega
  have hn : ngFlag out = decide (out.toInt < 0) := by rw [Bool.eq_iff_iff, ngFlag_iff_toInt_neg, decide_eq_true_eq]
  rw [hz, hn, Bool.eq_iff_iff]
  cases j <;> simp [jumpCond, jumps] <;> omega

theorem ofNat_nextPc (s : State) (taken : Bool) : BitVec.ofNat 16 (nextPc s taken) = pcAfter s taken := by
  cases taken with
  | false => simp [nextPc, pcAfter, BitVec.ofNat_add]
  | true => simp [nextPc, pcAfter]

end Sys2Proof.Machine

namespace Sys2Proof.Proofs

open Sys2Proof.Machine Sys2Proof.Claims

/-- Settles O26: the guards of the model's tick are those of R130 in its order, and it commits and notifies the same. -/
theorem tickIsTheTransitionOfTheSpec : Obligations.TickIsTheTransitionOfTheSpec := by
  intro s
  unfold refTick
  split
  case isTrue ha => exact tick_fault_iff.mpr (step_ramGuard ha)
  case isFalse ha =>
  have ha := Nat.not_le.mp ha
  split
  case isTrue hpc => exact tick_fault_iff.mpr (step_fetchGuard ha hpc)
  case isFalse hpc =>
  have hpc := Nat.not_le.mp hpc
  split
  case isTrue hbit =>
    have hstores : refStores s = false := by rw [refStores, hbit, Bool.false_and]
    have hkbd : ¬(refStores s = true ∧ s.a.toNat = config.kbdAddr) := by simp [hstores]
    split
    case isTrue hnext => exact tick_fault_iff.mpr (step_nextPcGuard ha hpc hkbd hnext)
    case isFalse hnext =>
      rw [tick_of_guards ha hpc hkbd (Nat.not_le.mp hnext), commit_refWrites_of_address hbit]
      simp [hstores]
  case isFalse hbit =>
    have hbit := Bool.eq_true_of_not_eq_false hbit
    have hstores : refStores s = (refWord s).getLsbD 3 := by rw [refStores, hbit, Bool.true_and]
    split
    case isTrue hkbd => exact tick_fault_iff.mpr (step_keyboardGuard ha hpc hkbd)
    case isFalse hkbd =>
      split
      case isTrue hnext => exact tick_fault_iff.mpr (step_nextPcGuard ha hpc hkbd hnext)
      case isFalse hnext =>
        rw [tick_of_guards ha hpc hkbd (Nat.not_le.mp hnext), commit_refWrites_of_compute hbit, hstores]

/-- Settles O23: the three writes go to three different fields, and none of them is read again. -/
theorem canonicalOrderAgrees : Obligations.CanonicalOrderAgrees := by
  intro y c d j s t h
  rw [exec_compute] at h
  obtain ⟨-, -, -, rfl⟩ := tickWith_next_iff.mp h
  dsimp only
  rw [secondOperand_eq_yOperand, alu_out, ← jumpCond_eq_jumps, ← ofNat_nextPc]
  cases d <;> rfl

/-- Settles O27: the RAM guard comes before the fetch and before any meaning, and `RAM_SIZE` is the weight of bit 15. -/
theorem ramGuardRejectsEveryInstruction : Obligations.RamGuardRejectsEveryInstruction :=
  ⟨fun _ ha => ⟨step_ramGuard ha, fun i => exec_fault_of_outside_ram i ha⟩, fun s => by
    rw [getLsbD_15, decide_eq_true_eq]
    exact Iff.rfl⟩

/-- Settles O28: the invariant bounds the program counter of every state a run reaches. -/
theorem fetchGuard : Obligations.FetchGuard :=
  ⟨fun _ => step_fetchGuard, fun s h => (reachableStatesMeetTheInvariant s h).pc_lt⟩

/-- Settles O29: past the RAM guard no jump leaves ROM, so the guard meets falling off the end alone. -/
theorem nextPcGuard : Obligations.NextPcGuard := by
  refine ⟨fun s => step_nextPcGuard, fun s t => step_next_pc, fun s n hpc h => ?_⟩
  rcases step_fault_iff_guards.mp h with ⟨-, hf⟩ | ⟨-, hpc', -⟩ | ⟨ha, -, ⟨-, hf⟩ | ⟨-, hnext, hf⟩⟩
  · cases hf
  · exact absurd hpc (Nat.not_lt.mpr hpc')
  · cases hf
  · cases hf
    exact not_refTaken_of_romSize_le ha hnext

/-- Settles O31: one clause for each guard. -/
theorem guardOrder : Obligations.GuardOrder := fun _ =>
  ⟨step_ramGuard, step_fetchGuard, fun ha hpc hstores hk => step_keyboardGuard ha hpc ⟨hstores, hk⟩,
    step_nextPcGuard⟩

/-- Settles O32: the writes of R130 are there to commit once the guards are passed. -/
theorem tickPossibleIffNoGuardFires : Obligations.TickPossibleIffNoGuardFires := by
  refine ⟨fun s => ?_, step_ne_refused⟩
  constructor
  · rintro ⟨t, h⟩
    obtain ⟨ha, hpc, hkbd, hnext, -⟩ := step_next_iff_guards.mp h
    exact ⟨ha, hpc, hkbd, hnext⟩
  · rintro ⟨ha, hpc, hkbd, hnext⟩
    exact ⟨_, step_next_iff_guards.mpr ⟨ha, hpc, hkbd, hnext, rfl⟩⟩

/-- Settles O33: the RAM guard looks at the `A` the step left; the code of `-1` zeroes both operands. -/
theorem addressOutsideRamFaultsTheNextTick : Obligations.AddressOutsideRamFaultsTheNextTick := by
  refine ⟨fun s t _ => step_ramGuard, fun s ha hpc => ?_⟩
  refine ⟨_, tickWith_next_iff.mpr ⟨ha, by simp [computeWrites, selected, writesM], hpc, rfl⟩, ?_⟩
  show (alu s.d s.a 0b111010#6).out = 0xFFFF#16
  rw [alu_of_zx rfl s.d 0, alu_of_zy rfl 0 s.a 0]
  rfl

/-- Settles O39: the notifications of an accepted step are those of its one store. -/
theorem tickNotifications : Obligations.TickNotifications := by
  intro s t notes h
  obtain ⟨hstep, rfl⟩ := tick_next_iff.mp h
  rw [step_next_notes hstep]
  exact ⟨fun hc => if_pos hc, fun hc => if_neg hc⟩

/-- Settles O25: past its two guards the fetch answers the decoded word. -/
theorem stepRunsTheDecodedInstruction : Obligations.StepRunsTheDecodedInstruction := fun _ ha hpc =>
  step_of_fetch_ok (fetch_ok_iff.mpr ⟨ha, hpc, rfl⟩)

end Sys2Proof.Proofs
end

section
/-! PROOFS of the family 42_address_instruction: the encoding of the address-instruction, its result, its silence and its two
faults. -/

namespace Sys2Proof.Machine

open Sys2Proof.Claims

/-- The word of `@value` is the value with bit 15 zero (42_address_instruction R150). -/
theorem decode_setWidth (value : BitVec 15) : decode (value.setWidth 16) = .atValue value :=
  congrArg Fields.instr (decodeFields_encodeFields (.address value))

theorem exec_atValue (value : BitVec 15) (s : State) :
    exec (.atValue value) s = tickWith s fun _ => addressWrites s value :=
  exec_eq_runFields (.atValue value) s

/-- It notifies nothing, whether its tick is accepted or not (R140, R150). -/
theorem emits_atValue (value : BitVec 15) (s : State) : emits (.atValue value) s = [] := by
  unfold emits
  cases exec (.atValue value) s <;> rfl

/-- It stores nothing, so the keyboard guard never meets it (R137). -/
theorem addressWrites_not_keyboardStore (value : BitVec 15) (s : State) :
    ¬((addressWrites s value).mem.isSome = true ∧ isKeyboard s.a = true) := by
  rintro ⟨hstores, -⟩
  cases hstores

theorem commit_addressWrites (value : BitVec 15) (s : State) :
    commit s (ramAtA s) (addressWrites s value) =
      { s with a := value.setWidth 16, pc := s.pc + 1#16, ml := ramAtA s } := by
  have hpc : BitVec.ofNat 16 (s.pc.toNat + 1) = s.pc + 1#16 := ofNat_nextPc s false
  rw [← hpc]
  rfl

/-- An accepted `@value` passed the RAM guard and the next-PC guard, and loaded its value into `A`. -/
theorem exec_atValue_next_iff {value : BitVec 15} {s t : State} :
    exec (.atValue value) s = .next t ↔
      s.a.toNat < config.ramSize ∧ s.pc.toNat + 1 < config.romSize ∧
        t = { s with a := value.setWidth 16, pc := s.pc + 1#16, ml := ramAtA s } := by
  rw [exec_atValue, tickWith_next_iff, ← commit_addressWrites]
  exact and_congr_right fun _ => and_iff_right (addressWrites_not_keyboardStore value s)

/-- Falling off the end of ROM (R136). -/
theorem exec_atValue_fault_of_end_of_rom (value : BitVec 15) {s : State} (ha : s.a.toNat < config.ramSize)
    (hpc : config.romSize ≤ s.pc.toNat + 1) :
    exec (.atValue value) s = .fault (.outOfRange .rom (s.pc.toNat + 1)) := by
  rw [exec_atValue]
  exact tickWith_fault_iff.mpr (.inr (.inr ⟨ha, addressWrites_not_keyboardStore value s, hpc, rfl⟩))

end Sys2Proof.Machine

namespace Sys2Proof.Proofs

open Sys2Proof.Machine Sys2Proof.Claims

/-- Settles O12: of the three guards of an execution only the RAM guard and the next-PC guard can fire. -/
theorem addressInstruction : Obligations.AddressInstruction := fun value s =>
  ⟨decode_setWidth value, fun ha hpc => exec_atValue_next_iff.mpr ⟨ha, hpc, rfl⟩, emits_atValue value s,
    exec_fault_of_outside_ram (.atValue value), exec_atValue_fault_of_end_of_rom value⟩

/-- Settles O21: the committed state differs from the old one in `A`, `PC` and the latch alone. -/
theorem addressFrame : Obligations.AddressFrame := by
  intro value s t h
  obtain ⟨-, -, rfl⟩ := exec_atValue_next_iff.mp h
  exact ⟨rfl, rfl, rfl, fun _ => rfl⟩

end Sys2Proof.Proofs
end

section
/-! PROOFS of the family 43_compute_instruction: when a compute-instruction completes and with which state, the computation and
destination rows, the frame and the ordering contract. -/

namespace Sys2Proof.Machine

open Sys2Proof.Claims

/-! ### When a compute-instruction completes, and the state it leaves (43_compute_instruction R160, R161, R190) -/

/-- The result of a compute-instruction in its pre-cycle state. -/
def computed (s : State) (y : Operand) (c : Code) : Word := aluOut s.d (secondOperand s y) c

theorem computeWrites_mem_isSome (s : State) (y : Operand) (c : Code) (d : Dest) (j : Jump) (m : Word) :
    (computeWrites s y c d j m).mem.isSome = storesTo d :=
  (selected_isSome _ _).trans (writesM_eq_storesTo d)

/-- The writes for the word step 1 latches are made from `computed`. -/
theorem computeWrites_ramAtA (s : State) (y : Operand) (c : Code) (d : Dest) (j : Jump) :
    computeWrites s y c d j (ramAtA s) =
      { mem := selected (writesM d) (computed s y c)
        d := selected (writesD d) (computed s y c)
        a := selected (writesA d) (computed s y c)
        next := nextOf s (jumps j (computed s y c)) } := by
  simp only [computeWrites, alu_out, alu_zr, alu_ng, jumpCond_eq_jumps, ← secondOperand_eq_yOperand]
  rfl

theorem commit_computeWrites (s : State) (y : Operand) (c : Code) (d : Dest) (j : Jump) :
    commit s (ramAtA s) (computeWrites s y c d j (ramAtA s)) =
      afterCompute s d (jumps j (computed s y c)) (computed s y c) := by
  rw [computeWrites_ramAtA, afterCompute, ← ofNat_nextPc]
  cases d <;> rfl

/-- Every row of a compute-instruction completes exactly where no guard of R137 fires, with the state of R160. -/
theorem exec_next_iff_of_compute {i : Instr} {y : Operand} {c : Code} {d : Dest} {j : Jump}
    (hi : i.fields = .compute y c d j) {s t : State} :
    exec i s = .next t ↔ Accepts s (storesTo d) (jumps j (computed s y c)) ∧
      t = afterCompute s d (jumps j (computed s y c)) (computed s y c) := by
  have hnext : (computeWrites s y c d j (ramAtA s)).next = nextOf s (jumps j (computed s y c)) := by
    rw [computeWrites_ramAtA]
  rw [exec_eq_runFields, hi, runFields_compute, tickWith_next_iff, ← ramAtA, computeWrites_mem_isSome, isKeyboard_iff,
    hnext, commit_computeWrites, not_and, Accepts, and_assoc, and_assoc]

/-- A row that no guard stops commits the state of R160. -/
theorem exec_of_accepts {i : Instr} {y : Operand} {c : Code} {d : Dest} {j : Jump} {s : State}
    (hi : i.fields = .compute y c d j) (h : Accepts s (storesTo d) (jumps j (computed s y c))) :
    exec i s = .next (afterCompute s d (jumps j (computed s y c)) (computed s y c)) :=
  (exec_next_iff_of_compute hi).mpr ⟨h, rfl⟩

/-! ### The rows of the computation table (R162 to R189) -/

/-- The mask 0x9FC0 keeps bit 15, the a-bit and the code, and clears the destination and the jump (30_encoding R62 to R67). -/
theorem decodeFields_of_pattern {w pattern : Word} {y : Operand} {c : Code} (h : w &&& 0x9FC0#16 = pattern)
    (hpattern : decodeFields pattern = .compute y c .null .null) :
    decodeFields w = .compute y c (destOfCode w) (jumpOfCode w) := by
  have hcode : (w &&& 0x9FC0#16).extractLsb' 6 6 = w.extractLsb' 6 6 := by
    rw [BitVec.extractLsb'_and]
    exact BitVec.and_allOnes
  have habit : (w &&& 0x9FC0#16).getLsbD 12 = w.getLsbD 12 := by simp
  subst h
  unfold decodeFields at hpattern ⊢
  split at hpattern
  · next hbit =>
    have h15 : w.getLsbD 15 = true := by simpa using hbit
    obtain ⟨rfl, rfl, -, -⟩ := Fields.compute.inj hpattern
    rw [if_pos h15, habit, hcode, ofBits_eq_destOfCode, ofBits_eq_jumpOfCode]
  · cases hpattern

/-- A row of R73 means what its closed form says: its pattern has the row's a-bit and code, the table names the row for them,
and R84 gives the result of that code. For a given row, evaluating the three tables shows each premise. -/
theorem compMeans_of_row (y : Operand) (c : Code) {i : Dest → Jump → Instr} {pattern : Word} {out : State → Word}
    (hpattern : decodeFields pattern = .compute y c .null .null := by rfl)
    (hrow : ∀ d j, (Fields.compute y c d j).instr = i d j := by intros; rfl)
    (hform : ∀ s, (closedForms s.d (secondOperand s y))[c.toNat]? = some (out s) := by intro; rfl) :
    CompMeans i pattern out := by
  refine ⟨fun w hw => ?_, fun d j s h => ?_⟩
  · rw [decode, decodeFields_of_pattern hw hpattern, hrow]
  · have hfields : (i d j).fields = .compute y c d j := by rw [← hrow, Fields.instr_fields]
    have hout : computed s y c = out s := Option.some.inj ((Proofs.aluClosedForms _ _ c).symm.trans (hform s))
    rw [← hout] at h ⊢
    exact exec_of_accepts hfields h

end Sys2Proof.Machine

namespace Sys2Proof.Proofs

open Sys2Proof.Machine Sys2Proof.Claims

/-- Settles O13: the general row has its own four fields. -/
theorem computeInstruction : Obligations.ComputeInstruction := fun _ _ _ _ _ => exec_of_accepts rfl

/-- Settles O14: each row by its a-bit and code. R84 writes the negations `-x`, R169 and R170 write them `0 - x`. -/
theorem constantsCopiesAndNegations : Obligations.ConstantsCopiesAndNegations :=
  ⟨compMeans_of_row .addr 0b101010#6,
   compMeans_of_row .addr 0b111111#6,
   compMeans_of_row .addr 0b111010#6,
   compMeans_of_row .addr 0b001100#6,
   compMeans_of_row .addr 0b110000#6,
   compMeans_of_row .addr 0b001101#6,
   compMeans_of_row .addr 0b110001#6,
   compMeans_of_row .addr 0b001111#6 (hform := fun _ => congrArg some (BitVec.zero_sub _).symm),
   compMeans_of_row .addr 0b110011#6 (hform := fun _ => congrArg some (BitVec.zero_sub _).symm)⟩

/-- Settles O15: each row by its a-bit and code. -/
theorem arithmeticOverRegisters : Obligations.ArithmeticOverRegisters :=
  ⟨compMeans_of_row .addr 0b011111#6,
   compMeans_of_row .addr 0b110111#6,
   compMeans_of_row .addr 0b001110#6,
   compMeans_of_row .addr 0b110010#6,
   compMeans_of_row .addr 0b000010#6,
   compMeans_of_row .addr 0b010011#6,
   compMeans_of_row .addr 0b000111#6,
   compMeans_of_row .addr 0b000000#6,
   compMeans_of_row .addr 0b010101#6⟩

/-- Settles O16: each row by its code, with the a-bit that selects memory. The negation is as in O14. -/
theorem arithmeticOverMemory : Obligations.ArithmeticOverMemory :=
  ⟨compMeans_of_row .mem 0b110000#6,
   compMeans_of_row .mem 0b110001#6,
   compMeans_of_row .mem 0b110011#6 (hform := fun _ => congrArg some (BitVec.zero_sub _).symm),
   compMeans_of_row .mem 0b110111#6,
   compMeans_of_row .mem 0b110010#6,
   compMeans_of_row .mem 0b000010#6,
   compMeans_of_row .mem 0b010011#6,
   compMeans_of_row .mem 0b000111#6,
   compMeans_of_row .mem 0b000000#6,
   compMeans_of_row .mem 0b010101#6⟩

/-- Settles O17: the state of R160 with each destination in place. -/
theorem destinationRows : Obligations.DestinationRows := fun _ _ _ _ =>
  ⟨fun h =>
    ⟨exec_of_accepts (d := .null) rfl h, exec_of_accepts (d := .D) rfl h,
     exec_of_accepts (d := .A) rfl h, exec_of_accepts (d := .AD) rfl h⟩,
   fun h =>
    ⟨exec_of_accepts (d := .M) rfl h, exec_of_accepts (d := .MD) rfl h,
     exec_of_accepts (d := .AM) rfl h, exec_of_accepts (d := .AMD) rfl h⟩⟩

/-- Settles O20: the next state is that of R160, so each clause is a case split on the destination or on the address. -/
theorem computeFrame : Obligations.ComputeFrame := by
  intro i y c d j s t hi h
  obtain ⟨-, rfl⟩ := (exec_next_iff_of_compute hi).mp h
  refine ⟨rfl, rfl, ?_, ?_, fun k hk => ?_, ?_⟩
  · rintro (rfl | rfl | rfl | rfl) <;> rfl
  · rintro (rfl | rfl | rfl | rfl) <;> rfl
  · dsimp only [afterCompute]
    split
    · exact Memory.get_set_other _ _ hk
    · rfl
  · rintro (rfl | rfl | rfl | rfl) k <;> rfl

/-- Settles O22: the rows of R162 to R189 at the given words. -/
theorem orderingContract : Obligations.OrderingContract := by
  obtain ⟨-, -, -, ⟨-, hD⟩, -⟩ := constantsCopiesAndNegations
  obtain ⟨⟨-, hDPlus1⟩, -, -, -, -, ⟨-, hDMinusA⟩, -⟩ := arithmeticOverRegisters
  obtain ⟨-, -, -, -, -, ⟨-, hDPlusM⟩, -⟩ := arithmeticOverMemory
  refine ⟨fun s hd ha hpc => ?_, fun s hd ha => ?_, fun s hd hm ha hk hpc => ?_, fun s hd ha hpc => ?_⟩
  · have haddr : s.a.toNat = 3 := congrArg BitVec.toNat ha
    have hout : s.d + 1#16 = 8#16 := by rw [hd]; rfl
    refine ⟨_, hDPlus1 .AM .null s ⟨by rw [haddr]; decide, fun _ => by rw [haddr]; decide, hpc⟩, ?_, ?_⟩
    · show Memory.get (Memory.set s.ram s.a.toNat (s.d + 1#16)) 3 = 8#16
      rw [haddr, hout, Memory.get_set_same]
    · show Memory.get (Memory.set s.ram s.a.toNat (s.d + 1#16)) 8 = Memory.get s.ram 8
      rw [haddr, Memory.get_set_other _ _ (by decide)]
  · have htarget : s.a.toNat < config.romSize := by rw [ha]; decide
    exact ⟨_, hD .A .JMP s ⟨by rw [ha]; decide, nofun, htarget⟩, hd, ha⟩
  · have hsum : s.d + ramAtA s = 12#16 := by rw [hd, hm]; rfl
    refine ⟨_, hDPlusM .MD .null s ⟨ha, fun _ => hk, hpc⟩, ?_, hsum⟩
    show Memory.get (Memory.set s.ram s.a.toNat (s.d + ramAtA s)) s.a.toNat = 12#16
    rw [Memory.get_set_same, hsum]
  · have hdiff : s.d - s.a = 0xFFFF#16 := by rw [hd, ha]; rfl
    exact ⟨_, hDMinusA .AD .null s ⟨by rw [ha]; decide, nofun, hpc⟩, hdiff, hdiff⟩

end Sys2Proof.Proofs
end

section
/-! PROOFS of the family 44_jump: the forms of the jump condition, the jump rows, the target of a taken jump, and jumps to
their own address. -/

namespace Sys2Proof.Machine

open Sys2Proof.Claims

/-! ### A jump by whether it is taken (44_jump R200, R209, R210) -/

/-- RAM and ROM have one size, so past the RAM guard the target of a taken jump is inside ROM (41_cycle_step R136). -/
theorem accepts_of_taken {s : State} {stores : Bool} (ha : s.a.toNat < config.ramSize)
    (hkbd : stores = true → s.a.toNat ≠ config.kbdAddr) : Accepts s stores true := ⟨ha, hkbd, ha⟩

/-- A row whose jump is decided completes past the guards of that decision. -/
theorem exec_of_jumps_eq {i : Instr} {y : Operand} {c : Code} {d : Dest} {j : Jump} {s : State} {taken : Bool}
    (hi : i.fields = .compute y c d j) (htaken : jumps j (computed s y c) = taken)
    (h : Accepts s (storesTo d) taken) : exec i s = .next (afterCompute s d taken (computed s y c)) := by
  subst htaken
  exact exec_of_accepts hi h

/-- The same of a computation row, whose result its closed form gives. -/
theorem exec_of_compMeans {i : Dest → Jump → Instr} {pattern : Word} {out : State → Word}
    (hrow : CompMeans i pattern out) {d : Dest} {j : Jump} {s : State} {taken : Bool} (htaken : jumps j (out s) = taken)
    (h : Accepts s (storesTo d) taken) : exec (i d j) s = .next (afterCompute s d taken (out s)) := by
  subst htaken
  exact hrow.2 d j s h

theorem afterCompute_pc_of_taken (s : State) (d : Dest) (out : Word) : (afterCompute s d true out).pc = s.a := rfl

theorem afterCompute_a (s : State) (d : Dest) (taken : Bool) (out : Word) :
    (afterCompute s d taken out).a = if writesA d then out else s.a := by cases d <;> rfl

/-! ### Runs no tick of which is rejected -/

theorem core_run_succ {M : Host.Core} {s u : M.State} (h : M.step s = .next u) (n : Nat) :
    M.run (n + 1) s = M.run n u := by simp only [Host.Core.run, h]

/-- If every state with a property steps to one with it, no tick of a run from such a state is rejected, and the property
holds after any number of ticks. -/
theorem run_of_step_keeps {P : State → Prop} (hstep : ∀ s, P s → ∃ t, step s = .next t ∧ P t) (n : Nat) :
    ∀ s, P s → ∃ t, Host.Core.run Sys2Proof.core n s = .next t ∧ P t := by
  induction n with
  | zero => exact fun s hs => ⟨s, rfl, hs⟩
  | succ n ih =>
    intro s hs
    obtain ⟨u, hu, hPu⟩ := hstep s hs
    obtain ⟨t, ht, hPt⟩ := ih u hPu
    exact ⟨t, (core_run_succ hu n).trans ht, hPt⟩

/-! ### A taken jump to its own address (R212) -/

/-- The next tick executes a compute-instruction with these fields whose jump is taken to the instruction's own address, and
no guard of 41_cycle_step R137 fires. -/
structure AtSelfJump (s : State) (y : Operand) (c : Code) (d : Dest) (j : Jump) : Prop where
  a_lt : s.a.toNat < config.ramSize
  pc_eq : s.pc = s.a
  not_keyboard : storesTo d = true → s.a.toNat ≠ config.kbdAddr
  fields : (decode (Memory.get s.rom s.pc.toNat)).fields = .compute y c d j
  taken : jumps j (computed s y c) = true

/-- The instruction repeats at its own address: it writes nothing, or it jumps always and keeps `A` (R212). -/
def RepeatsInPlace (d : Dest) (j : Jump) : Prop := d = .null ∨ j = .JMP ∧ (d = .M ∨ d = .D ∨ d = .MD)

theorem writesA_of_RepeatsInPlace {d : Dest} {j : Jump} (h : RepeatsInPlace d j) : writesA d = false := by
  rcases h with rfl | ⟨-, rfl | rfl | rfl⟩ <;> rfl

section
variable {s : State} {y : Operand} {c : Code} {d : Dest} {j : Jump}

theorem AtSelfJump.step_eq (h : AtSelfJump s y c d j) : step s = .next (afterCompute s d true (computed s y c)) := by
  have hpc : s.pc.toNat < config.romSize := h.pc_eq ▸ h.a_lt
  rw [Proofs.stepRunsTheDecodedInstruction s h.a_lt hpc]
  exact exec_of_jumps_eq h.fields h.taken (accepts_of_taken h.a_lt h.not_keyboard)

/-- With nothing to write, a taken jump to its own address changes the latch alone. -/
theorem afterCompute_null_of_pc_eq_a (hpc : s.pc = s.a) (out : Word) :
    afterCompute s .null true out = { s with ml := ramAtA s } := by
  obtain ⟨pc, a, dreg, ml, ram, rom⟩ := s
  obtain rfl : pc = a := hpc
  rfl

/-- While `A` is kept, the instruction is still the one at its own address; it jumps again if it still decides so. -/
theorem AtSelfJump.after_step (h : AtSelfJump s y c d j) (hd : writesA d = false)
    (htaken : jumps j (computed (afterCompute s d true (computed s y c)) y c) = true) :
    AtSelfJump (afterCompute s d true (computed s y c)) y c d j := by
  have ha : (afterCompute s d true (computed s y c)).a = s.a := by simp [afterCompute_a, hd]
  have hpc : (afterCompute s d true (computed s y c)).pc = s.pc := h.pc_eq.symm
  refine ⟨ha ▸ h.a_lt, ha ▸ afterCompute_pc_of_taken s d _, ha ▸ h.not_keyboard, ?_, htaken⟩
  rw [hpc]
  exact h.fields

/-- An instruction that writes nothing computes the same result again; `JMP` does not look at the result. -/
theorem AtSelfJump.taken_again (h : AtSelfJump s y c d j) (hrepeat : RepeatsInPlace d j) :
    jumps j (computed (afterCompute s d true (computed s y c)) y c) = true := by
  rcases hrepeat with rfl | ⟨rfl, -⟩
  · have hsame : computed (afterCompute s .null true (computed s y c)) y c = computed s y c := by cases y <;> rfl
    rw [hsame]
    exact h.taken
  · rfl

/-- A repeating self-jump is executed on every tick of a run, at one `PC`, with one `A` and one program. -/
theorem AtSelfJump.run (h : AtSelfJump s y c d j) (hrepeat : RepeatsInPlace d j) (n : Nat) :
    ∃ t, Host.Core.run Sys2Proof.core n s = .next t ∧
      AtSelfJump t y c d j ∧ t.pc = s.pc ∧ t.a = s.a ∧ t.rom = s.rom := by
  refine run_of_step_keeps (P := fun t => AtSelfJump t y c d j ∧ t.pc = s.pc ∧ t.a = s.a ∧ t.rom = s.rom) ?_ n s
    ⟨h, rfl, rfl, rfl⟩
  rintro u ⟨hu, hpc, ha, hrom⟩
  have hd := writesA_of_RepeatsInPlace hrepeat
  refine ⟨_, hu.step_eq, hu.after_step hd (hu.taken_again hrepeat), hu.pc_eq.symm.trans hpc, ?_, hrom⟩
  simpa [afterCompute_a, hd] using ha

end

end Sys2Proof.Machine

namespace Sys2Proof.Proofs

open Sys2Proof.Machine Sys2Proof.Claims

/-- Settles O11: the table is the signed comparison and, for the bits of the code, the bit form. -/
theorem jumpConditionForms : Obligations.JumpConditionForms := by
  intro j x y c
  have hbits := jumpCond_ofBits (j.bits.getLsbD 2) (j.bits.getLsbD 1) (j.bits.getLsbD 0) (aluOut x y c)
  rw [Jump.ofBits_bits] at hbits
  exact ⟨jumpCond_eq_jumps j _, hbits⟩

/-- Settles O18: the comparison of each row decides its jump. -/
theorem jumpRows : Obligations.JumpRows := fun _ _ _ _ =>
  ⟨fun h =>
    ⟨exec_of_jumps_eq (j := .JMP) rfl rfl h,
     fun hout => exec_of_jumps_eq (j := .JGT) rfl (decide_eq_true hout) h,
     fun hout => exec_of_jumps_eq (j := .JEQ) rfl (decide_eq_true hout) h,
     fun hout => exec_of_jumps_eq (j := .JGE) rfl (decide_eq_true hout) h,
     fun hout => exec_of_jumps_eq (j := .JLT) rfl (decide_eq_true hout) h,
     fun hout => exec_of_jumps_eq (j := .JNE) rfl (decide_eq_true hout) h,
     fun hout => exec_of_jumps_eq (j := .JLE) rfl (decide_eq_true hout) h⟩,
   fun h =>
    ⟨exec_of_jumps_eq (j := .null) rfl rfl h,
     fun hout => exec_of_jumps_eq (j := .JGT) rfl (decide_eq_false hout) h,
     fun hout => exec_of_jumps_eq (j := .JEQ) rfl (decide_eq_false hout) h,
     fun hout => exec_of_jumps_eq (j := .JGE) rfl (decide_eq_false hout) h,
     fun hout => exec_of_jumps_eq (j := .JLT) rfl (decide_eq_false hout) h,
     fun hout => exec_of_jumps_eq (j := .JNE) rfl (decide_eq_false hout) h,
     fun hout => exec_of_jumps_eq (j := .JLE) rfl (decide_eq_false hout) h⟩⟩

/-- Settles O24: an accepted row left the state of R160, whose PC is made from the pre-cycle `A`. -/
theorem jumpTargetIsTheOldA : Obligations.JumpTargetIsTheOldA := by
  intro i y c d j s t hi h htaken
  obtain ⟨-, rfl⟩ := (exec_next_iff_of_compute hi).mp h
  have htaken : jumps j (computed s y c) = true := htaken
  rw [htaken, afterCompute_a]
  exact ⟨afterCompute_pc_of_taken s d _, fun hd => if_pos hd⟩

/-- Settles O59: the tick leaves the machine at the self-jump, and a repeating one is an invariant of the run. -/
theorem takenSelfJumpsStayInPlace : Obligations.TakenSelfJumpsStayInPlace := by
  intro s y c d j out ha hpc hkbd hfields htaken
  have h : AtSelfJump s y c d j := ⟨ha, hpc, hkbd, hfields, htaken⟩
  refine ⟨⟨_, h.step_eq, hpc.symm, rfl⟩, fun hrepeat n => ?_⟩
  obtain ⟨t, hrun, -, hkept⟩ := h.run hrepeat n
  exact ⟨t, hrun, hkept⟩

/-- Settles O19: `comp0` computes 0 whatever `D` holds, `compD` computes `D`. -/
theorem sourceJumpExample : Obligations.SourceJumpExample := by
  obtain ⟨hcomp0, -, -, hcompD, -⟩ := constantsCopiesAndNegations
  refine ⟨rfl, rfl, fun s ha => ?_, fun s ha hd => ?_, fun s ha hd hpc => ?_⟩
  · exact exec_of_compMeans hcomp0 (d := .D) (j := .JEQ) rfl (accepts_of_taken ha nofun)
  · have htaken : jumps .JEQ s.d = true := by rw [hd]; rfl
    exact exec_of_compMeans hcompD (d := .null) htaken (accepts_of_taken ha nofun)
  · have hnot : jumps .JEQ s.d = false := by rw [hd]; rfl
    exact exec_of_compMeans hcompD (d := .null) hnot ⟨ha, nofun, hpc⟩

/-- Settles O40: it writes nothing but the latch, which the next step does not read. -/
theorem selfJumpRepeats : Obligations.SelfJumpRepeats := by
  intro s ha hpc hword
  have h : AtSelfJump s .addr 0b101010#6 .null .JMP := ⟨ha, hpc, nofun, by rw [hword]; rfl, rfl⟩
  have hstep : step s = .next { s with ml := ramAtA s } := by rw [h.step_eq, afterCompute_null_of_pc_eq_a hpc]
  exact ⟨hstep, by rw [step_withMl, hstep]⟩

end Sys2Proof.Proofs
end

section
/-! PROOFS of the family 45_host_interface: what an accepted load puts into ROM, which errors a rejected one reports, and the
host's reads and writes of RAM. -/

namespace Sys2Proof.Machine

open Sys2Proof.Claims

/-! ### The word of a line (30_encoding R76) -/

/-- One more character shifts the word up and is its new bit 0. -/
theorem lineWord_append_singleton (l : Line) (ch : Char) :
    lineWord (l ++ [ch]) = (lineWord l).shiftConcat (decide (ch = '1')) := by
  refine BitVec.eq_of_toNat_eq ?_
  rw [BitVec.toNat_shiftConcat]
  simp only [lineWord, List.foldl_append, List.foldl_cons, List.foldl_nil, BitVec.toNat_ofNat]
  by_cases h : ch = '1' <;> simp [h, Nat.shiftLeft_eq] <;> omega

/-- Counted from the end of the line, as the bits of a word are, character `k` is bit `k`. -/
theorem getLsbD_lineWord (l : Line) {k : Nat} (hk : k < 16) :
    (lineWord l).getLsbD k = decide (l.reverse[k]? = some '1') := by
  induction l using List.reverseRecOn generalizing k with
  | nil => simp [lineWord]
  | append_singleton l ch ih =>
    rw [lineWord_append_singleton, BitVec.getLsbD_shiftConcat, List.reverse_append]
    cases k with
    | zero => simp
    | succ k => simp [hk, ih (Nat.lt_of_succ_lt hk)]

/-- Character `i` of a well-formed line is bit `15 - i`. -/
theorem getLsbD_lineWord_of_lineOk {l : Line} (h : LineOk l) {i : Nat} (hi : i < 16) :
    (lineWord l).getLsbD (15 - i) = decide (l[i]? = some '1') := by
  obtain ⟨hlen, -⟩ := h
  rw [getLsbD_lineWord l (by omega), List.getElem?_reverse (by omega)]
  congr 3
  omega

/-! ### The errors of a text (45_host_interface R222) -/

theorem badLines_eq_map (k : Nat) (lines : List Line) :
    badLines k lines = ((lines.zipIdx k).filter fun p => !lineOk p.1).map fun p => .line p.2 := by
  induction lines generalizing k with
  | nil => rfl
  | cons l rest ih =>
    rw [badLines, ih, List.zipIdx_cons, List.filter_cons]
    cases lineOk l <;> rfl

theorem capacity_mem_loadErrors {lines : List Line} : .capacity ∈ loadErrors lines ↔ config.romSize < lines.length := by
  simp [loadErrors, badLines_eq_map]

theorem line_mem_loadErrors {lines : List Line} {i : Nat} :
    .line i ∈ loadErrors lines ↔ ∃ l, lines[i]? = some l ∧ ¬LineOk l := by
  simp [loadErrors, badLines_eq_map, List.mk_mem_zipIdx_iff_getElem?, LineOk, ← lineOk_iff]

/-- A text without errors fits and has only well-formed lines. -/
theorem loadErrors_eq_nil_iff_lineOk {lines : List Line} :
    loadErrors lines = [] ↔ lines.length ≤ config.romSize ∧ ∀ l ∈ lines, LineOk l := by
  simp only [loadErrors_eq_nil_iff, lineOk_iff, LineOk]

theorem call_loadProgram_of_no_errors {lines : List Line} (h : loadErrors lines = []) (s : State) :
    call (.loadProgram lines) s = .next ⟨{ s with rom := memoryOf 0 (lines.map lineWord) }, none, []⟩ :=
  call_loadProgram_next_iff.mpr ⟨_, loadProgram_ok_iff.mpr ⟨h, rfl⟩, rfl⟩

theorem call_loadProgram_of_errors {lines : List Line} (h : loadErrors lines ≠ []) (s : State) :
    ∃ e ∈ loadErrors lines, call (.loadProgram lines) s = .fault (.formatError e) := by
  cases hload : loadProgram lines s with
  | ok t => exact absurd (loadProgram_ok_iff.mp hload).1 h
  | error f =>
    obtain ⟨e, he, rfl⟩ := loadProgram_error hload
    exact ⟨e, he, by simp only [call, hload]⟩

/-! ### The host's reads and writes of RAM (R226, R227, R229) -/

theorem call_readMemory_of_outside {addr : Word} (h : config.ramSize ≤ addr.toNat) (s : State) :
    call (.readMemory addr) s = .fault (.outOfRange .ram addr.toNat) := by
  simp only [call, memRead_error_iff.mpr ⟨h, rfl⟩]

theorem call_writeMemory_of_inside {addr : Word} (h : addr.toNat < config.ramSize) (v : Word) (s : State) :
    call (.writeMemory addr v) s = .next ⟨{ s with ram := Memory.set s.ram addr.toNat v }, none, notify addr v⟩ :=
  writeReply_next_iff.mpr ⟨_, memWrite_ok_iff.mpr ⟨h, rfl⟩, rfl⟩

theorem call_writeMemory_of_outside {addr : Word} (h : config.ramSize ≤ addr.toNat) (v : Word) (s : State) :
    call (.writeMemory addr v) s = .fault (.outOfRange .ram addr.toNat) := by
  rw [call_writeMemory, memWrite_error_iff.mpr ⟨h, rfl⟩, writeReply]

theorem notify_eq_ite (addr v : Word) :
    notify addr v =
      if config.screenBase ≤ addr.toNat ∧ addr.toNat < config.screenBase + config.screenLen then [⟨addr, v⟩] else [] :=
  if_congr inScreen_iff rfl rfl

/-- The keyboard register is inside RAM and outside the screen range, so a key call is accepted and silent. -/
theorem call_injectKey_eq_next (code : Word) (s : State) :
    call (.injectKey code) s = .next ⟨{ s with ram := Memory.set s.ram config.kbdAddr code }, none, []⟩ :=
  call_writeMemory_of_inside (addr := BitVec.ofNat 16 config.kbdAddr) (by decide) code s

end Sys2Proof.Machine

namespace Sys2Proof.Proofs

open Sys2Proof.Machine Sys2Proof.Claims

/-- Settles O51: a text is accepted exactly when `loadErrors` finds nothing, and a reported error is one it found. -/
theorem loadProgramAllOrNothing : Obligations.LoadProgramAllOrNothing := by
  refine fun lines s => ⟨fun h => ?_, fun h => ?_⟩
  · refine ⟨_, call_loadProgram_of_no_errors (loadErrors_eq_nil_iff_lineOk.mpr h) s, rfl,
      fun k l hl i hi => ?_, fun k hk => ?_⟩
    · have hok : LineOk l := h.2 l (List.mem_of_getElem? hl)
      rw [Memory.get_memoryOf _ 0 k (Nat.zero_le k), Nat.sub_zero, List.getElem?_map, hl]
      exact getLsbD_lineWord_of_lineOk hok hi
    · rw [Memory.get_memoryOf _ 0 k (Nat.zero_le k), List.getElem?_eq_none (by simpa using hk), Option.getD_none]
  · obtain ⟨e, he, hcall⟩ := call_loadProgram_of_errors (mt loadErrors_eq_nil_iff_lineOk.mp h) s
    refine ⟨(afterCall_fault hcall).1, e, hcall, ?_⟩
    cases e with
    | capacity => exact capacity_mem_loadErrors.mp he
    | line i => exact line_mem_loadErrors.mp he

/-- Settles O54: inside RAM the reply is the state with one word set, outside the write faults. -/
theorem hostWritesMemory : Obligations.HostWritesMemory := fun addr v s =>
  ⟨fun h => ⟨_, notify_eq_ite addr v ▸ call_writeMemory_of_inside h v s, rfl, Memory.get_set_same _ _ _,
    fun _ hk => Memory.get_set_other _ _ hk⟩,
   fun h => call_writeMemory_of_outside h v s⟩

/-- Settles O55: the key stands at the keyboard address, where `D=M` reads it when `A` points there. -/
theorem keyInjection : Obligations.KeyInjection := by
  intro code s
  have hcall := call_injectKey_eq_next code s
  refine ⟨rfl, rfl, ⟨_, hcall, Memory.get_set_same _ _ _, rfl⟩, fun ha hpc => ?_⟩
  obtain ⟨⟨-, hcompM⟩, -⟩ := arithmeticOverMemory
  have haInside : s.a.toNat < config.ramSize := by rw [ha]; decide
  rw [(afterCall_next hcall).1]
  refine ⟨_, hcompM .D .null _ ⟨haInside, nofun, hpc⟩, ?_⟩
  exact (congrArg (Memory.get _) ha).trans (Memory.get_set_same _ _ _)

/-- Settles O53: by whether the address passes the RAM guard. -/
theorem hostReadsMemory : Obligations.HostReadsMemory := fun _ s =>
  ⟨fun h => call_readMemory_next_iff.mpr ⟨_, memRead_ok_iff.mpr ⟨h, rfl⟩, rfl⟩,
   fun h => call_readMemory_of_outside h s⟩

end Sys2Proof.Proofs
end

section
/-! PROOFS of the family 60_exceptions: a rejected call is as if not made, and which calls a fault outlasts. -/

namespace Sys2Proof.Machine

open Sys2Proof.Claims

/-! ### Rejected calls in a session (60_exceptions R252) -/

/-- A rejected call leaves the state and adds nothing to the trace, so the session goes on as if it had not been made. -/
theorem session_cons_of_fault {c : HostCall} {s : State} {f : Fault} (h : call c s = .fault f)
    (rest : List HostCall) : session (c :: rest) s = session rest s := by
  obtain ⟨hstate, hnotes⟩ := afterCall_fault h
  rw [session_cons, hstate, hnotes, List.nil_append]

/-- A call that is rejected is rejected again however often it is made. -/
theorem session_replicate_of_fault {c : HostCall} {s : State} {f : Fault} (h : call c s = .fault f) (n : Nat) :
    session (List.replicate n c) s = (s, []) := by
  induction n with
  | zero => rfl
  | succ n ih => rw [List.replicate_succ, session_cons_of_fault h, ih]

/-- A rejected tick as a host call is a rejected step (45_host_interface R225). -/
theorem call_tick_fault_iff {s : State} {f : Fault} : call .tick s = .fault f ↔ step s = .fault f := by
  rw [← tick_fault_iff]
  dsimp only [call]
  cases tick s <;> simp

/-! ### The address register outside RAM (R253) -/

theorem writeReply_next_a {s : State} {addr v : Word} {r : Reply} (h : writeReply (memWrite s addr v) = .next r) :
    r.state.a = s.a := by
  obtain ⟨p, hp, rfl⟩ := writeReply_next_iff.mp h
  obtain ⟨-, rfl⟩ := memWrite_ok_iff.mp hp
  rfl

/-- Of the calls that do not zero the machine only a tick writes `A`, and the RAM guard rejects it while `A` is outside RAM. -/
theorem call_next_a_of_outside_ram {c : HostCall} {s : State} {r : Reply} (hc : keepsMachine c = true)
    (ha : config.ramSize ≤ s.a.toNat) (h : call c s = .next r) : r.state.a = s.a := by
  cases c with
  | construct => cases hc
  | loadProgram lines =>
    obtain ⟨t, ht, rfl⟩ := call_loadProgram_next_iff.mp h
    obtain ⟨-, rfl⟩ := loadProgram_ok_iff.mp ht
    rfl
  | reset => cases hc
  | tick => cases (call_tick_fault_iff.mpr (step_ramGuard ha)).symm.trans h
  | readMemory addr =>
    obtain ⟨v, -, rfl⟩ := call_readMemory_next_iff.mp h
    rfl
  | writeMemory addr value => exact writeReply_next_a (call_writeMemory addr value s ▸ h)
  | injectKey code => exact writeReply_next_a (call_injectKey code s ▸ h)
  | clearKey => exact writeReply_next_a (call_clearKey s ▸ h)

theorem afterCall_a_of_outside_ram {c : HostCall} {s : State} (hc : keepsMachine c = true)
    (ha : config.ramSize ≤ s.a.toNat) : (afterCall c s).a = s.a :=
  afterCall_of_call_next (P := fun t => t.a = s.a) rfl fun _ h => call_next_a_of_outside_ram hc ha h

/-- No list of calls without construct and reset brings `A` back inside RAM. -/
theorem session_a_of_outside_ram (calls : List HostCall) : ∀ s : State, config.ramSize ≤ s.a.toNat →
    (∀ c ∈ calls, keepsMachine c = true) → (session calls s).1.a = s.a := by
  induction calls with
  | nil => exact fun _ _ _ => rfl
  | cons c rest ih =>
    intro s ha h
    obtain ⟨hc, hrest⟩ := List.forall_mem_cons.mp h
    have hkept : (afterCall c s).a = s.a := afterCall_a_of_outside_ram hc ha
    rw [session_cons, ih _ (hkept ▸ ha) hrest, hkept]

end Sys2Proof.Machine

namespace Sys2Proof.Proofs

open Sys2Proof.Machine Sys2Proof.Claims

/-- Settles O50: a rejected tick leaves the state it started from, and no accepted call but construct and reset changes an
`A` outside RAM. -/
theorem faultIsPermanent : Obligations.FaultIsPermanent := by
  refine ⟨fun s f n h => ?_, fun calls s ha hcalls => ?_, fun s => ?_⟩
  · have hcall : call .tick s = .fault f := call_tick_fault_iff.mpr h
    have hsession := session_replicate_of_fault hcall n
    exact ⟨hsession, hsession ▸ hcall⟩
  · have hkept : (session calls s).1.a = s.a := session_a_of_outside_ram calls s ha hcalls
    exact ⟨hkept, hkept ▸ step_ramGuard (hkept ▸ ha)⟩
  · show (resetMachine s).a.toNat < config.ramSize
    rw [resetMachine_a]
    decide

/-- Settles O49. -/
theorem rejectionChangesNothing : Obligations.RejectionChangesNothing := fun _ _ _ rest h =>
  session_cons_of_fault h rest

end Sys2Proof.Proofs
end

section
/-! PROOFS of the family 70_reset_and_hazards: the run of an all-zero ROM from construct up to its last word. -/

namespace Sys2Proof.Machine

/-! ### Silent ticks (45_host_interface R225, R228) -/

/-- An accepted tick that notifies nothing moves a session to the state it commits and adds nothing to the trace. -/
theorem session_cons_of_silent_tick {s t : State} (hstep : step s = .next t) (hnotes : tickNotes s = [])
    (rest : List HostCall) : session (.tick :: rest) s = session rest t := by
  obtain ⟨hstate, hcallNotes⟩ :=
    afterCall_next (r := ⟨t, none, []⟩) (call_tick_next_iff.mpr ⟨hstep, rfl, hnotes.symm⟩)
  rw [session_cons, hstate, hcallNotes, List.nil_append]

/-! ### The machine after construct, its program counter moved into the zero ROM (70_reset_and_hazards R283) -/

/-- The state after construct but for `PC`, which is `n`. -/
def resetAt (n : Nat) : State := { State.reset with pc := BitVec.ofNat 16 n }

theorem resetAt_pc_toNat {n : Nat} (hn : n < config.romSize) : (resetAt n).pc.toNat = n := by
  have hsize : config.romSize < 2 ^ 16 := by decide
  exact (BitVec.toNat_ofNat ..).trans (Nat.mod_eq_of_lt (hn.trans hsize))

/-- `A = 0` is inside RAM. -/
theorem resetAt_a_lt (n : Nat) : (resetAt n).a.toNat < config.ramSize := by
  show State.reset.a.toNat < config.ramSize
  decide

/-- The zero word is `@0`. -/
theorem fetch_resetAt {n : Nat} (hn : n < config.romSize) : fetch (resetAt n) = .ok (.atValue 0) :=
  fetch_ok_iff.mpr ⟨resetAt_a_lt n, (resetAt_pc_toNat hn).symm ▸ hn, (decode_setWidth 0).symm⟩

theorem tickNotes_resetAt {n : Nat} (hn : n < config.romSize) : tickNotes (resetAt n) = [] := by
  rw [tickNotes, fetch_resetAt hn]
  exact emits_atValue 0 _

/-- `@0` loads the 0 that `A` holds and latches the 0 that `RAM[0]` holds, so it moves `PC` alone. -/
theorem step_resetAt {n : Nat} (hn : n + 1 < config.romSize) : step (resetAt n) = .next (resetAt (n + 1)) := by
  have hlt : n < config.romSize := Nat.lt_of_succ_lt hn
  have hnext : (resetAt n).pc.toNat + 1 < config.romSize := by rwa [resetAt_pc_toNat hlt]
  have hpc : resetAt (n + 1) = { resetAt n with pc := (resetAt n).pc + 1#16 } := by
    simp only [resetAt, BitVec.ofNat_add]
  rw [step_of_fetch_ok (fetch_resetAt hlt), hpc]
  exact exec_atValue_next_iff.mpr ⟨resetAt_a_lt n, hnext, rfl⟩

/-- The `@0` at the last ROM word falls off the end (41_cycle_step R136). -/
theorem step_resetAt_last {n : Nat} (hn : n + 1 = config.romSize) :
    step (resetAt n) = .fault (.outOfRange .rom config.romSize) := by
  have hlt : n < config.romSize := Nat.lt_of_succ_le hn.le
  have hend : (resetAt n).pc.toNat + 1 = config.romSize := by rw [resetAt_pc_toNat hlt, hn]
  rw [step_of_fetch_ok (fetch_resetAt hlt), exec_atValue_fault_of_end_of_rom 0 (resetAt_a_lt n) hend.ge, hend]

/-- `k` ticks that stay inside the zero ROM move `PC` by `k` and notify nothing. -/
theorem run_and_session_resetAt (k : Nat) : ∀ n, n + k < config.romSize →
    Host.Core.run Sys2Proof.core k (resetAt n) = .next (resetAt (n + k)) ∧
      session (List.replicate k .tick) (resetAt n) = (resetAt (n + k), []) := by
  induction k with
  | zero => exact fun _ _ => ⟨rfl, rfl⟩
  | succ k ih =>
    intro n hn
    have hstep : step (resetAt n) = .next (resetAt (n + 1)) := step_resetAt (by omega)
    have hnotes : tickNotes (resetAt n) = [] := tickNotes_resetAt (by omega)
    obtain ⟨hrun, hsession⟩ := ih (n + 1) (by omega)
    rw [Nat.add_assoc, Nat.add_comm 1 k] at hrun hsession
    rw [List.replicate_succ, session_cons_of_silent_tick hstep hnotes]
    exact ⟨(core_run_succ hstep k).trans hrun, hsession⟩

end Sys2Proof.Machine

namespace Sys2Proof.Proofs

open Sys2Proof.Machine

/-- Settles O48, by induction on the number of ticks; the next-PC guard ends the run. -/
theorem zeroRomRunsToTheEnd : Obligations.ZeroRomRunsToTheEnd := by
  refine ⟨fun n hn => ?_, step_resetAt_last rfl⟩
  have h := run_and_session_resetAt n 0 (by rwa [Nat.zero_add])
  rwa [Nat.zero_add] at h

end Sys2Proof.Proofs
end

section
/-! PROOFS of the family other: the sample words, and that a well-formed instruction is the row the decoder names. -/

namespace Sys2Proof

open Sys2Proof.Machine

/-! ### The row named for a pair without a mnemonic (30_encoding R70, R72) -/

theorem Fields.instr_of_undocumented {y : Operand} {c : Code} (h : undocumented y c = true) (d : Dest) (j : Jump) :
    (Fields.compute y c d j).instr = shapeInstr y c d j := by
  simp only [Fields.instr, undocumented_iff.mp h]

/-- A destination together with a jump is the general row: each other branch of the shape has one of the two null. -/
theorem shapeInstr_of_dest_of_jump (y : Operand) (c : Code) {d : Dest} {j : Jump} (hd : d ≠ .null) (hj : j ≠ .null) :
    shapeInstr y c d j = .compute y c d j := by
  simp [shapeInstr, hd, hj]

/-- Naming the fields of a well-formed instruction gives it back: `wf` says of each constructor that its fields take its own
branch of the naming, the row of the table or a shape. -/
theorem Instr.fields_instr_of_wf {i : Instr} (h : i.wf = true) : i.fields.instr = i := by
  cases i
  case atValue => rfl
  case compute y c d j =>
    obtain ⟨⟨hdoc, hd⟩, hj⟩ : (undocumented y c = true ∧ d ≠ .null) ∧ j ≠ .null := by simpa [Instr.wf] using h
    exact (Fields.instr_of_undocumented hdoc d j).trans (shapeInstr_of_dest_of_jump y c hd hj)
  case destNull y c j =>
    obtain ⟨⟨hdoc, rfl⟩, rfl⟩ : (undocumented y c = true ∧ j = .null) ∧ y = .addr := by simpa [Instr.wf] using h
    exact Fields.instr_of_undocumented hdoc _ _
  case jumpNull y c d =>
    obtain ⟨⟨hdoc, rfl⟩, rfl⟩ : (undocumented y c = true ∧ d = .null) ∧ y = .mem := by simpa [Instr.wf] using h
    exact Fields.instr_of_undocumented hdoc _ _
  case destM y c j | destD y c j | destMD y c j | destA y c j | destAM y c j | destAD y c j | destAMD y c j =>
    obtain ⟨hdoc, rfl⟩ : undocumented y c = true ∧ j = .null := by simpa [Instr.wf] using h
    exact Fields.instr_of_undocumented hdoc _ _
  case jumpJGT y c d | jumpJEQ y c d | jumpJGE y c d | jumpJLT y c d | jumpJNE y c d | jumpJLE y c d | jumpJMP y c d =>
    obtain ⟨hdoc, rfl⟩ : undocumented y c = true ∧ d = .null := by simpa [Instr.wf] using h
    exact Fields.instr_of_undocumented hdoc _ _
  -- The 28 computations: the table of R73 names their own row, whatever the destination and the jump.
  all_goals rfl

end Sys2Proof

namespace Sys2Proof.Proofs

/-- Settles O3: encoding keeps the fields, and a well-formed instruction is the one its fields are named by. -/
theorem decodeEncodeRoundTrip : Obligations.DecodeEncodeRoundTrip := fun i h => by
  rw [decode, encode, decodeFields_encodeFields, Instr.fields_instr_of_wf h]

/-- Settles O1: nine fixed words, evaluated. -/
theorem sampleWordsDecode : Obligations.SampleWordsDecode := by
  unfold Obligations.SampleWordsDecode
  decide

end Sys2Proof.Proofs
end
